-- ==== Sys2Proof/Word.lean ====
section
/-! DEFINITION. The word types of HS300x-PE and the two result types of the transport contract. -/

namespace Sys2Proof

/-- A byte of a frame (10_state.md R29). -/
abbrev Byte := BitVec 8

/-- A host register, and a command word (00_scope.md R8, HOST_REG_W). -/
abbrev Word := BitVec 32

/-- A 7-bit device bus address (R8, ADDR_W). -/
abbrev BusAddr := BitVec 7

/-- A bus selector (R8, BUSSEL_W). -/
abbrev BusSel := BitVec 8

/-- A BusError: an opaque code the engine never inspects (R12, D6). -/
abbrev BusErr := BitVec 8

/-- A 14-bit ADC code (R8, CODE_W). -/
abbrev Code := BitVec 14

/-- A binary32 bit pattern (30_encoding.md R105). -/
abbrev B32 := BitVec 32

/-- The Raw Frame: exactly four bytes, numbered in delivery order (10_state.md R29, 00_scope.md R10). -/
structure Frame where
  b0 : Byte
  b1 : Byte
  b2 : Byte
  b3 : Byte
  deriving DecidableEq, Repr, Inhabited

/-- What the transport answers to a trigger: Result<(), BusError> (20_memory.md R61, R12). -/
inductive TrigAnswer where
  | ok
  | err (e : BusErr)
  deriving DecidableEq, Repr, Inhabited

/-- What the transport answers to a read: Result<[u8;4], BusError> (20_memory.md R62, R12). -/
inductive ReadAnswer where
  | ok (f : Frame)
  | err (e : BusErr)
  deriving DecidableEq, Repr, Inhabited

end Sys2Proof
end

