-- ==== Sys2Proof/Config.lean ====
section
/-! DEFINITION. The parameters of 00_scope.md R8: the fixed ones as constants, the open ones as plain data
(FP_EVAL, BUS_PRESENT, BASE), and the free values (the device oracle of 20_memory.md R63, the content of a frame
register or a result register that holds no value) as constants without a body. -/

namespace Sys2Proof

/-- FP_EVAL (R8, 92_eei_decisions.md D10): how the scaler formulas are evaluated. -/
inductive FpEval where
  /-- EXACT_RN: round the exact rational result once (42_decoder_scaler.md R176). -/
  | exactRn
  /-- B32_CHAIN: every operation in binary32 (R180). -/
  | b32Chain
  deriving DecidableEq, Repr

/-- The open parameters that are no register. No step writes them. -/
structure Config where
  /-- FP_EVAL (R8, D10). -/
  fpEval : FpEval
  /-- BUS_PRESENT, as the list of the selectors that resolve to a bus (R8, D16). -/
  busPresent : List BusSel
  /-- BASE(inst), as the list of the instances with the host address at which the platform puts each one's window
  (20_memory.md R72, 92_eei_decisions.md D2, U17). No rule reads it (log 21). -/
  base : List (Nat × Nat)
  deriving DecidableEq, Repr

namespace Config

/-- DEV_ADDR (R8): the device address that interoperates with the sensor. -/
def devAddr : BusAddr := 0x44#7

/-- STATUS_VALID (R8, 30_encoding.md R92). -/
def statusValid : BitVec 2 := 0#2

/-- CODE_MAX (R8): the scaler's divisor. -/
def codeMax : Nat := 16383

/-- H_SPAN (R8). -/
def hSpan : Nat := 100

/-- T_SPAN (R8). -/
def tSpan : Nat := 165

/-- T_OFFSET (R8). -/
def tOffset : Nat := 40

/-- RETRY_DELAY_MS (R8, 41_sequencer.md R146). -/
def retryDelayMs : Nat := 100

/-- RETRY_LIMIT_RESET (R8, D7). -/
def retryLimitReset : BitVec 16 := 10#16

/-- RETRY_UNBOUNDED (R8, 10_state.md R28): the value of RETRY_LIMIT that means no bound. -/
def retryUnbounded : BitVec 16 := 0xFFFF#16

/-- The parameters of the machine after reset: FP_EVAL at its default EXACT_RN (R8); BUS_PRESENT, for which the
spec gives no default, as 95_test_vectors.md uses it, true exactly for selector 0; BASE, for which it gives none either,
for no instance. DESIGN CHOICE (log 11, log 21), unsafe: statements quantify over every Config. -/
def default : Config := { fpEval := .exactRn, busPresent := [0#8], base := [] }

/-- BASE(inst): the host address of an instance's window, where the platform gives it one (R72). -/
def baseOf (c : Config) (inst : Nat) : Option Nat := c.base.lookup inst

/-- The host address of the register at a byte offset of an instance's window (10_state.md R37, R72). A host access names
the instance and the offset instead (log 21). -/
def hostAddress (c : Config) (inst off : Nat) : Option Nat := (c.baseOf inst).map (· + off)

/-- The oracle's answer to the n-th unscripted question, a trigger of a device on a bus (R63): unconstrained.
A free value (log 3). -/
opaque oracleTrig : Nat → BusSel → BusAddr → TrigAnswer

/-- The oracle's answer to the n-th unscripted question, a read of a device on a bus (R63): unconstrained.
A free value (log 3). -/
opaque oracleRead : Nat → BusSel → BusAddr → ReadAnswer

/-- The content of F[0..3] when it holds no value and is read all the same (93_implementation_defined.md U8,
"any value"). A free value (log 4). -/
opaque freeFrame : Nat → Frame

/-- The 32-bit pattern that a host read of HUM, TEMP or VAL returns while the register holds no_value
(10_state.md R33, "some 32-bit pattern", "two reads may differ"; 93_implementation_defined.md U7, "any value").
A free value (log 5). -/
opaque freeResult : Nat → Word

end Config

end Sys2Proof
end

