-- ==== Sys2Proof/Machine/Binary32.lean ====
section
/-! DEFINITION. Rounding an exact rational to binary32 (RN32, 42_decoder_scaler.md R176), the binary32 operations of
B32_CHAIN (R180), and the scaler's two functions (R177, R179). The binary32 layout is 30_encoding.md R105
(PRESUMED, the spec marks it general knowledge, log 15). -/

namespace Sys2Proof.Machine

open Sys2Proof

/-- An exact rational: numerator over denominator, the denominator not 0. -/
structure Ratio where
  num : Int
  den : Nat
  deriving DecidableEq, Repr

namespace Ratio

/-- The exact value of an unsigned integer: u2f (00_scope.md R11). -/
def ofNat (n : Nat) : Ratio := { num := n, den := 1 }

/-- The exact product. -/
def mul (x y : Ratio) : Ratio := { num := x.num * y.num, den := x.den * y.den }

/-- The exact quotient, for a divisor that is not 0. -/
def div (x y : Ratio) : Ratio :=
  { num := x.num * y.den * y.num.sign, den := x.den * y.num.natAbs }

/-- The exact difference. -/
def sub (x y : Ratio) : Ratio := { num := x.num * y.den - y.num * x.den, den := x.den * y.den }

/-- The rational as a member of ℚ, for statements. -/
def toRat (x : Ratio) : ℚ := (x.num : ℚ) / (x.den : ℚ)

end Ratio

/-- n / d to the nearest integer, ties to even (R176). -/
def roundQuot (n d : Nat) : Nat :=
  if 2 * (n % d) < d then n / d
  else if d < 2 * (n % d) then n / d + 1
  else n / d + (n / d) % 2

/-- n / d < 2^e, decided in integers. -/
def quotBelowPow2 (n d : Nat) (e : Int) : Bool :=
  match e with
  | .ofNat k => decide (n < d * 2 ^ k)
  | .negSucc k => decide (n * 2 ^ (k + 1) < d)

/-- The exponent e with 2^e ≤ n / d < 2^(e+1), for positive n and d. -/
def floorLog2 (n d : Nat) : Int :=
  let e : Int := (n.log2 : Int) - (d.log2 : Int)
  if quotBelowPow2 n d e then e - 1 else e

/-- n / d in units of 2^e, to the nearest integer, ties to even. -/
def roundScaled (n d : Nat) (e : Int) : Nat :=
  match e with
  | .ofNat k => roundQuot n (d * 2 ^ k)
  | .negSucc k => roundQuot (n * 2 ^ (k + 1)) d

/-- The exponent of a magnitude, not below that of the smallest normal number. -/
def roundExp (n d : Nat) : Int := max (floorLog2 n d) (-126)

/-- The low 31 bits of RN32 of a non-negative rational n / d. A significand that rounds up to 2^24 carries into the
exponent by the same sum; subnormal results and overflow to infinity are as IEEE-754 has them and no input of the
block reaches them (R181; log 17). -/
def roundMagnitude (n d : Nat) : Nat :=
  if n = 0 then 0 else
  min 0x7F800000 ((roundExp n d + 126).toNat * 2 ^ 23 + roundScaled n d (roundExp n d - 23))

/-- RN32(q): the binary32 value nearest q, ties to even (R176); RN32(0) is +0.0. -/
def rn32 (q : Ratio) : B32 :=
  BitVec.ofNat 32 ((if q.num < 0 then 2 ^ 31 else 0) + roundMagnitude q.num.natAbs q.den)

/-- The biased exponent field, bits 30:23 (R105). -/
def b32Exp (x : B32) : Nat := (x.extractLsb' 23 8).toNat

/-- The fraction field, bits 22:0 (R105). -/
def b32Frac (x : B32) : Nat := (x.extractLsb' 0 23).toNat

/-- Neither infinite nor NaN. -/
def b32Finite (x : B32) : Bool := b32Exp x != 255

/-- The significand of a finite binary32 in units of 2^(b32Scale x - 150). -/
def b32Significand (x : B32) : Nat := if b32Exp x = 0 then b32Frac x else 2 ^ 23 + b32Frac x

/-- The exponent of the unit of the significand, plus 150. -/
def b32Scale (x : B32) : Nat := if b32Exp x = 0 then 1 else b32Exp x

/-- The exact value of a finite binary32 (R105). -/
def b32Ratio (x : B32) : Ratio :=
  let m : Int := b32Significand x
  let s : Int := if x.getLsbD 31 then -m else m
  if 150 ≤ b32Scale x then { num := s * 2 ^ (b32Scale x - 150), den := 1 }
  else { num := s, den := 2 ^ (150 - b32Scale x) }

/-- The order of binary32 values as the order of integers: sign and magnitude of the pattern. -/
def b32Key (x : B32) : Int :=
  if x.getLsbD 31 then -((x.extractLsb' 0 31).toNat : Int) else ((x.extractLsb' 0 31).toNat : Int)

/-- mul32 (R180): the exact product rounded. -/
def mul32 (x y : B32) : B32 := rn32 ((b32Ratio x).mul (b32Ratio y))

/-- div32 (R180): the exact quotient rounded. The block's only divisor is 16383.0 (R181). -/
def div32 (x y : B32) : B32 := rn32 ((b32Ratio x).div (b32Ratio y))

/-- sub32 (R180): the exact difference rounded. -/
def sub32 (x y : B32) : B32 := rn32 ((b32Ratio x).sub (b32Ratio y))

/-- The binary32 of an unsigned integer, exact below 2^24 (R175). -/
def u2b32 (n : Nat) : B32 := rn32 (Ratio.ofNat n)

/-- The exact humidity of a code: hc * 100 / 16383 (R177). -/
def humidityExact (hc : Code) : Ratio := (Ratio.ofNat (hc.toNat * Config.hSpan)).div (Ratio.ofNat Config.codeMax)

/-- The exact temperature of a code: tc * 165 / 16383 - 40 (R179). -/
def temperatureExact (tc : Code) : Ratio :=
  ((Ratio.ofNat (tc.toNat * Config.tSpan)).div (Ratio.ofNat Config.codeMax)).sub (Ratio.ofNat Config.tOffset)

/-- F_SCALEH(hc), under the given FP_EVAL (R177, R180). -/
def scaleH (ev : FpEval) (hc : Code) : B32 :=
  match ev with
  | .exactRn => rn32 (humidityExact hc)
  | .b32Chain => div32 (mul32 (u2b32 hc.toNat) (u2b32 Config.hSpan)) (u2b32 Config.codeMax)

/-- F_SCALET(tc), under the given FP_EVAL (R179, R180). -/
def scaleT (ev : FpEval) (tc : Code) : B32 :=
  match ev with
  | .exactRn => rn32 (temperatureExact tc)
  | .b32Chain =>
    sub32 (div32 (mul32 (u2b32 tc.toNat) (u2b32 Config.tSpan)) (u2b32 Config.codeMax)) (u2b32 Config.tOffset)

end Sys2Proof.Machine
end

