-- ==== Sys2Proof/Syntax.lean ====
section
/-! DEFINITION. The operations of spec/opcode_table.json, one constructor a row, and the ports (formats of
30_encoding.md R90) on which their words arrive. -/

namespace Sys2Proof

/-- One constructor for each row of the table. -/
inductive Instr where
  -- format CMD: the word the host writes to the CMD register (30_encoding.md R95, R96)
  | init (bus : BusSel) (addr : BusAddr)
  | acq
  | rdt
  | rdh
  | reservedCmd0
  | reservedCmd5
  | reservedCmd6
  | reservedCmd7
  | reservedCmd8
  | reservedCmd9
  | reservedCmdA
  | reservedCmdB
  | reservedCmdC
  | reservedCmdD
  | reservedCmdE
  | reservedCmdF
  -- format BUSTXN: the two bus transactions (R93)
  | trigger (a : BusAddr)
  | read4 (a : BusAddr)
  -- format FRAME: a frame, classified by its status (R91, R92, R108)
  | frameValid (f : Frame)
  | frameNotready01 (f : Frame)
  | frameNotready10 (f : Frame)
  | frameNotready11 (f : Frame)
  -- format SEQ: the sequencer step that STATE selects (R98)
  | sTrig
  | sRead
  | sChk
  | sRetry
  | sTimeout
  | sDec
  -- format DATAPATH: the functions of the parser and the scaler (42_decoder_scaler.md)
  | fStatus (b0 : Byte)
  | fHcode (b0 b1 : Byte)
  | fTcode (b2 b3 : Byte)
  | fScaleh (hc : Code)
  | fScalet (tc : Code)
  | fDecode (b0 b1 b2 b3 : Byte)
  deriving DecidableEq, Repr

/-- The interface a word arrives on. The formats overlap as bit strings; the port tells them apart (R90).
The SEQ port carries, beside the value of STATE, the LimitReached predicate that chooses between S_RETRY and
S_TIMEOUT (41_sequencer.md R140, R148). -/
inductive Port where
  | cmd
  | bus
  | frame
  | seq (limitReached : Bool)
  | fStatus
  | fHcode
  | fTcode
  | fScaleh
  | fScalet
  | fDecode
  deriving DecidableEq, Repr

/-- Why a word selects no operation of its port. -/
inductive Reject where
  /-- The word has a bit above the port's width (30_encoding.md R90: every format has a fixed length). -/
  | tooWide
  /-- STATE is one of the terminal states 5 to 7, which select no step (R98). -/
  | terminalState
  /-- STATE is one of 8 to 15, which no rule produces (R98). -/
  | unusedState
  deriving DecidableEq, Repr

end Sys2Proof
end

