-- ==== Sys2Proof/Decode.lean ====
section
/-! DEFINITION. The decoder of each port, total on every word, the encoder after it, and the decoder of a bare
table word (30_encoding.md; spec/opcode_table.json). -/

namespace Sys2Proof

/-- The status field ST of a frame: byte 0, bits 7:6 (30_encoding.md R91). -/
def frameStatus (f : Frame) : BitVec 2 := f.b0.extractLsb' 6 2

/-- A field in its place in a word: bit 0 of `v` at bit `lo` (00_scope.md R10). -/
def place {n : Nat} (v : BitVec n) (lo : Nat) : Word := v.setWidth 32 <<< lo

/-- The 32-bit view of a frame, byte 0 in bits 31:24 (20_memory.md R65). -/
def frameWord (f : Frame) : Word := place f.b0 24 ||| place f.b1 16 ||| place f.b2 8 ||| place f.b3 0

/-- The frame whose 32-bit view a word is (R65). -/
def frameOfWord (w : Word) : Frame :=
  { b0 := w.extractLsb' 24 8, b1 := w.extractLsb' 16 8, b2 := w.extractLsb' 8 8, b3 := w.extractLsb' 0 8 }

/-- How many bits a word of a port has (R90; the table's encodings). -/
def Port.width : Port → Nat
  | .cmd => 32
  | .bus => 8
  | .frame => 32
  | .seq _ => 4
  | .fStatus => 8
  | .fHcode => 16
  | .fTcode => 16
  | .fScaleh => 14
  | .fScalet => 14
  | .fDecode => 32

/-- A command word, from OPC = bits 3:0 alone; every other bit but INIT's arguments is ignored (R95, R96). -/
def decodeCmd (w : Word) : Instr :=
  match (w.extractLsb' 0 4).toNat with
  | 0 => .reservedCmd0
  | 1 => .init (w.extractLsb' 16 8) (w.extractLsb' 8 7)
  | 2 => .acq
  | 3 => .rdt
  | 4 => .rdh
  | 5 => .reservedCmd5
  | 6 => .reservedCmd6
  | 7 => .reservedCmd7
  | 8 => .reservedCmd8
  | 9 => .reservedCmd9
  | 10 => .reservedCmdA
  | 11 => .reservedCmdB
  | 12 => .reservedCmdC
  | 13 => .reservedCmdD
  | 14 => .reservedCmdE
  | _ => .reservedCmdF

/-- The address byte of a transaction: address in bits 7:1, direction in bit 0, 0 write and 1 read
(R94; PRESUMED, the spec marks it general knowledge, log 15). -/
def decodeBus (w : Word) : Instr :=
  if w.getLsbD 0 then .read4 (w.extractLsb' 1 7) else .trigger (w.extractLsb' 1 7)

/-- A frame, classified by its status; total (R92, R108). -/
def decodeFrame (f : Frame) : Instr :=
  match (frameStatus f).toNat with
  | 0 => .frameValid f
  | 1 => .frameNotready01 f
  | 2 => .frameNotready10 f
  | _ => .frameNotready11 f

/-- The step that the value of STATE selects (R98), LimitReached choosing in NotReady (41_sequencer.md R140). -/
def decodeSeq (limitReached : Bool) (w : Word) : Except Reject Instr :=
  match (w.extractLsb' 0 4).toNat with
  | 0 => .ok .sTrig
  | 1 => .ok .sRead
  | 2 => .ok .sChk
  | 3 => .ok (if limitReached then .sTimeout else .sRetry)
  | 4 => .ok .sDec
  | 5 => .error .terminalState
  | 6 => .error .terminalState
  | 7 => .error .terminalState
  | _ => .error .unusedState

/-- The decoder: what a word that arrives on a port selects. Total; it rejects by name. -/
def decode (p : Port) (w : Word) : Except Reject Instr :=
  if 2 ^ p.width ≤ w.toNat then .error .tooWide else
  match p with
  | .cmd => .ok (decodeCmd w)
  | .bus => .ok (decodeBus w)
  | .frame => .ok (decodeFrame (frameOfWord w))
  | .seq b => decodeSeq b w
  | .fStatus => .ok (.fStatus (w.extractLsb' 0 8))
  | .fHcode => .ok (.fHcode (w.extractLsb' 8 8) (w.extractLsb' 0 8))
  | .fTcode => .ok (.fTcode (w.extractLsb' 8 8) (w.extractLsb' 0 8))
  | .fScaleh => .ok (.fScaleh (w.extractLsb' 0 14))
  | .fScalet => .ok (.fScalet (w.extractLsb' 0 14))
  | .fDecode => .ok (.fDecode (w.extractLsb' 24 8) (w.extractLsb' 16 8) (w.extractLsb' 8 8) (w.extractLsb' 0 8))

/-- The port an operation's word arrives on. -/
def portOf : Instr → Port
  | .init _ _ | .acq | .rdt | .rdh
  | .reservedCmd0 | .reservedCmd5 | .reservedCmd6 | .reservedCmd7 | .reservedCmd8 | .reservedCmd9
  | .reservedCmdA | .reservedCmdB | .reservedCmdC | .reservedCmdD | .reservedCmdE | .reservedCmdF => .cmd
  | .trigger _ | .read4 _ => .bus
  | .frameValid _ | .frameNotready01 _ | .frameNotready10 _ | .frameNotready11 _ => .frame
  | .sTrig | .sRead | .sChk | .sRetry | .sDec => .seq false
  | .sTimeout => .seq true
  | .fStatus _ => .fStatus
  | .fHcode _ _ => .fHcode
  | .fTcode _ _ => .fTcode
  | .fScaleh _ => .fScaleh
  | .fScalet _ => .fScalet
  | .fDecode _ _ _ _ => .fDecode

/-- The encoder: the word of an operation, with every ignored bit 0 (R95 "must be written 0"; R94; R91; R98). -/
def encode : Instr → Word
  | .init bus addr => place bus 16 ||| place addr 8 ||| 1#32
  | .acq => 2#32
  | .rdt => 3#32
  | .rdh => 4#32
  | .reservedCmd0 => 0#32
  | .reservedCmd5 => 5#32
  | .reservedCmd6 => 6#32
  | .reservedCmd7 => 7#32
  | .reservedCmd8 => 8#32
  | .reservedCmd9 => 9#32
  | .reservedCmdA => 10#32
  | .reservedCmdB => 11#32
  | .reservedCmdC => 12#32
  | .reservedCmdD => 13#32
  | .reservedCmdE => 14#32
  | .reservedCmdF => 15#32
  | .trigger a => place a 1
  | .read4 a => place a 1 ||| 1#32
  | .frameValid f | .frameNotready01 f | .frameNotready10 f | .frameNotready11 f => frameWord f
  | .sTrig => 0#32
  | .sRead => 1#32
  | .sChk => 2#32
  | .sRetry => 3#32
  | .sTimeout => 3#32
  | .sDec => 4#32
  | .fStatus b0 => place b0 0
  | .fHcode b0 b1 => place b0 8 ||| place b1 0
  | .fTcode b2 b3 => place b2 8 ||| place b3 0
  | .fScaleh hc => place hc 0
  | .fScalet tc => place tc 0
  | .fDecode b0 b1 b2 b3 => place b0 24 ||| place b1 16 ||| place b2 8 ||| place b3 0

/-- The port to which a bare table word is given when nothing says where it arrived. The table's formats overlap
as bit strings, so this is a convention of the model and no rule of the spec. DESIGN CHOICE (log 9), safe: `step`
never uses it.
32 bits: a non-zero word whose must-be-written-0 bits of R95 are 0 is a command ("an all-zero write is not a
command", D3), every other word a frame. 8 bits: 0 to 4 a sequencer step, 5 to 15 a command word whose upper bits
are 0, the rest an address byte. 16 bits: the two bytes of F_HCODE. 14 bits: the code of F_SCALEH. 4 bits: a
sequencer step. -/
def tablePort (nbits w : Nat) : Option Port :=
  if nbits = 32 then some (if w &&& 0xFF0080F0 = 0 ∧ w ≠ 0 then .cmd else .frame)
  else if nbits = 8 then some (if w < 5 then .seq false else if w < 16 then .cmd else .bus)
  else if nbits = 16 then some .fHcode
  else if nbits = 14 then some .fScaleh
  else if nbits = 4 then some (.seq false)
  else none

/-- The instruction the decoder reads from a bare table word (log 9). -/
def decodeTableWord (nbits w : Nat) : Option Instr :=
  match tablePort nbits w with
  | none => none
  | some p =>
    if 2 ^ nbits ≤ w then none else
    match decode p (BitVec.ofNat 32 w) with
    | .ok i => some i
    | .error _ => none

end Sys2Proof
end

