-- ==== Sys2Proof/Machine/State.lean ====
section
/-! DEFINITION. The state of HS300x-PE (10_state.md), the turns of the agents (00_scope.md R14), the event history
(20_memory.md R70), the fault and refusal reasons, and the state after reset (R45). Plain data throughout. -/

namespace Sys2Proof.Machine

open Sys2Proof

/-- The sequencer state register STATE, the block's program counter (10_state.md R24). Its numbers are R98's. -/
inductive SeqState where
  | idle
  | triggered
  | reading
  | notReady
  | ready
  | decoded
  | failedTransport
  | failedTimeout
  deriving DecidableEq, Repr

/-- OP: which acquisition command's cycle runs or ran last (R26). Its numbers are R100's. -/
inductive Op where
  | acq
  | rdt
  | rdh
  deriving DecidableEq, Repr

/-- ERRKIND: the kind of the failure of the last completed command (R35). Its numbers are R99's. -/
inductive ErrKind where
  | none
  | transportError
  | notReadyTimeout
  | initError
  | cmdRefused
  deriving DecidableEq, Repr

/-- One engine instance: every register of 10_state.md, each once. -/
structure Engine where
  /-- BOUND, R21. -/
  bound : Bool
  /-- BUSREF, R22. -/
  busref : BusSel
  /-- ADDR, R23. -/
  addr : BusAddr
  /-- STATE, R24. -/
  state : SeqState
  /-- RUN, R25. -/
  run : Bool
  /-- OP, R26. -/
  op : Op
  /-- RETRY_CNT, R27. -/
  retryCnt : BitVec 16
  /-- RETRY_LIMIT, R28. -/
  retryLimit : BitVec 16
  /-- F[0..3], R29: the four bytes, written all at once; `none` is the spec's own "no value" (log 4). -/
  frame : Option Frame
  /-- HC, R30; `none` is the spec's own "no value" (log 4). -/
  hc : Option Code
  /-- TC, R30; `none` is the spec's own "no value" (log 4). -/
  tc : Option Code
  /-- HUM, R31; `none` is the spec's own no_value (R33). -/
  hum : Option B32
  /-- TEMP, R31; `none` is the spec's own no_value (R33). -/
  temp : Option B32
  /-- VAL, R32; `none` is the spec's own no_value (R33). -/
  val : Option B32
  /-- DONE, R34. -/
  done : Bool
  /-- ERR, R34. -/
  err : Bool
  /-- VALID, R34. -/
  valid : Bool
  /-- ERRKIND, R35. -/
  errkind : ErrKind
  /-- BUSERR, R36. -/
  buserr : BusErr
  deriving DecidableEq, Repr

/-- The reset values of R45, every register of one instance. -/
def Engine.reset : Engine where
  bound := false
  busref := 0#8
  addr := Config.devAddr
  state := .idle
  run := false
  op := .acq
  retryCnt := 0#16
  retryLimit := Config.retryLimitReset
  frame := none
  hc := none
  tc := none
  hum := none
  temp := none
  val := none
  done := false
  err := false
  valid := false
  errkind := .none
  buserr := 0#8

/-- The size of a host access (20_memory.md R67). -/
inductive AccessSize where
  | byte
  | half
  | word
  deriving DecidableEq, Repr

/-- One access of the host to an instance's register window, at a byte offset from the instance's base
(10_state.md R37, R67). -/
inductive HostAccess where
  | read (off : Nat) (size : AccessSize)
  | write (off : Nat) (size : AccessSize) (v : Word)
  deriving DecidableEq, Repr

/-- Where a reset falls (70_reset_and_hazards.md R242; log 13). -/
inductive ResetMoment where
  /-- Between two steps, or inside a step none of whose events has completed: a transaction that is cut short leaves
  no event, and neither does a delay. -/
  | betweenSteps
  /-- Inside S_RETRY while its read is in progress: the delay before it has completed and stays in the history. -/
  | inRetryRead
  deriving DecidableEq, Repr

/-- One turn: which agent moves next, on which instance, and what it does (00_scope.md R14; log 1). -/
inductive Turn where
  /-- The host accesses a register (R127, R128; a write of CMD issues a command, R40). -/
  | host (inst : Nat) (a : HostAccess)
  /-- Reset of one instance (70_reset_and_hazards.md R240, R242). -/
  | reset (inst : Nat) (m : ResetMoment)
  /-- The instance's sequencer takes a step, if it has one (41_sequencer.md R140). -/
  | sequencer (inst : Nat)
  /-- A word is put on a port of the instance. The outside world cannot do this: it is how the model runs a row of
  the table (a transaction, a frame class, a datapath function) by itself. DESIGN CHOICE (log 7). -/
  | port (inst : Nat) (p : Port) (w : Word)
  deriving DecidableEq, Repr

/-- An event of the history (20_memory.md R70). -/
inductive BusEvent where
  | trig (inst : Nat) (bus : BusSel) (addr : BusAddr) (res : TrigAnswer)
  | read (inst : Nat) (bus : BusSel) (addr : BusAddr) (res : ReadAnswer)
  | delay (inst : Nat) (ms : Nat)
  deriving DecidableEq, Repr

/-- What an operation delivers to whoever asked for it (log 7). -/
inductive Delivered where
  /-- The word a host read returns (40_host_commands.md R127). -/
  | hostWord (v : Word)
  /-- The answer of a trigger (20_memory.md R61). -/
  | trig (a : TrigAnswer)
  /-- The answer of a read (R62). -/
  | read (a : ReadAnswer)
  /-- The result of F_STATUS (42_decoder_scaler.md R172). -/
  | status (st : BitVec 2)
  /-- The result of F_HCODE or F_TCODE (R173, R174). -/
  | code (c : Code)
  /-- The result of F_SCALEH or F_SCALET (R177, R179). -/
  | b32 (x : B32)
  /-- The result of F_DECODE: humidity and temperature (R178). -/
  | reading (hum temp : B32)
  deriving DecidableEq, Repr

/-- The machine: the instance in focus, the other instances, the parameters, the agents' turns, the device's
scripted answers, and the model's records. -/
structure State where
  /-- The number of the instance in focus (R20; log 2). -/
  inst : Nat
  /-- The registers of the instance in focus. -/
  eng : Engine
  /-- The other instances with their numbers, the one that moved last first (R20; log 1, log 2). -/
  parked : List (Nat × Engine)
  /-- The open parameters (00_scope.md R8; log 11). -/
  cfg : Config
  /-- The turns to come, the next one first (log 1). When none is left, the sequencers move in turn,
  the one that has waited longest next. -/
  turns : List Turn
  /-- The device's scripted answers to triggers, the next one first (30_encoding.md R106). R106 writes one script and
  does not say what a transaction does that meets a line of the other kind: the lines are kept by kind, so that a
  trigger takes the next T: line, whatever R: lines stand before it. Nor do R43, R63 and R106 say whose lines a
  transaction takes where there are several instances: one script serves all of them, on every bus and at every
  address, in the order in which their transactions happen. DESIGN CHOICE (log 3). -/
  trigScript : List TrigAnswer
  /-- The device's scripted answers to reads, the next one first (R106), kept by kind and for all instances
  together, like those to triggers. DESIGN CHOICE (log 3). -/
  readScript : List ReadAnswer
  /-- How many free values have been drawn (log 3). -/
  draws : Nat
  /-- The event history, oldest first (20_memory.md R70). -/
  history : List BusEvent
  /-- What the last delivering operation delivered (log 7). -/
  out : Option Delivered
  deriving DecidableEq, Repr

/-- The machine right after reset: one instance (N_INSTANCES at its default 1) with the reset values of R45,
nothing scripted and nothing recorded. -/
def State.reset : State where
  inst := 0
  eng := Engine.reset
  parked := []
  cfg := Config.default
  turns := []
  trigScript := []
  readScript := []
  draws := 0
  history := []
  out := none

/-- Why the machine stops with a fault. -/
inductive Fault where
  /-- Raised by `fetch`: a turn names an instance that does not exist (N_INSTANCES, R8; log 20). Safe: the machine
  stops where the spec describes nothing. -/
  | noSuchInstance
  deriving DecidableEq, Repr

/-- Why a step has no meaning. -/
inductive Refusal where
  /-- Raised by `exec` for an instruction that has no meaning in the model yet. Safe. -/
  | notModelled (mnemonic : String)
  /-- Raised by `fetch`: the word on the port selects no operation (30_encoding.md R98: a terminal or unused STATE;
  a word wider than its port). Safe. -/
  | undecodable (r : Reject)
  /-- Raised by the sequencer steps and the frame classes outside their precondition: no such step exists there
  (41_sequencer.md R140; 93_implementation_defined.md, "refuse"). Safe. -/
  | stepNotEnabled
  /-- Raised by TRIGGER and READ4 run by themselves on an engine that is unbound or bound to another address: the
  engine issues no such transaction, and a model must not add one (00_scope.md R6, 20_memory.md R60, R61). Safe. -/
  | notOwnDevice
  /-- Raised by a host access that is not an aligned 32-bit word (20_memory.md R67, D27, U9). Safe. -/
  | notAlignedWord
  deriving DecidableEq, Repr

end Sys2Proof.Machine
end

