-- ==== Sys2Proof/Machine/Operands.lean ====
section
/-! DEFINITION. The frame parser's functions (42_decoder_scaler.md R172 to R174) and the numbers of the names held
in registers (30_encoding.md R98 to R100). -/

namespace Sys2Proof.Machine

open Sys2Proof

/-- F_STATUS(b0) = b0[7:6] (R172). -/
def parseStatus (b0 : Byte) : BitVec 2 := b0.extractLsb' 6 2

/-- F_HCODE(b0, b1) = b0[5:0] :: b1[7:0] (R173). -/
def parseHcode (b0 b1 : Byte) : Code := b0.extractLsb' 0 6 ++ b1

/-- F_TCODE(b2, b3) = b2[7:0] :: b3[7:2] (R174). -/
def parseTcode (b2 b3 : Byte) : Code := b2 ++ b3.extractLsb' 2 6

/-- The number of a STATE name (R98). -/
def stateCode : SeqState → BitVec 4
  | .idle => 0#4
  | .triggered => 1#4
  | .reading => 2#4
  | .notReady => 3#4
  | .ready => 4#4
  | .decoded => 5#4
  | .failedTransport => 6#4
  | .failedTimeout => 7#4

/-- The number of an ERRKIND name (R99). -/
def errKindCode : ErrKind → BitVec 3
  | .none => 0#3
  | .transportError => 1#3
  | .notReadyTimeout => 2#3
  | .initError => 3#3
  | .cmdRefused => 4#3

/-- The number of an OP name (R100). -/
def opCode : Op → BitVec 2
  | .acq => 0#2
  | .rdt => 1#2
  | .rdh => 2#2

/-- The STATE name that a SEQ word stands for (R98); the numbers 8 to 15 stand for none. -/
def stateOfCode (w : Nat) : Option SeqState :=
  match w with
  | 0 => some .idle
  | 1 => some .triggered
  | 2 => some .reading
  | 3 => some .notReady
  | 4 => some .ready
  | 5 => some .decoded
  | 6 => some .failedTransport
  | 7 => some .failedTimeout
  | _ => none

end Sys2Proof.Machine
end

