-- ==== Sys2Proof/Machine/Flags.lean ====
section
/-! DEFINITION. The flags and the words the host reads them in: LimitReached (41_sequencer.md R148), STATUS and
CONFIG (10_state.md R38, R39). -/

namespace Sys2Proof.Machine

open Sys2Proof

/-- LimitReached = (RETRY_LIMIT != 0xFFFF) and (RETRY_CNT >= RETRY_LIMIT) (41_sequencer.md R148). -/
def limitReached (e : Engine) : Bool :=
  e.retryLimit != Config.retryUnbounded && decide (e.retryLimit.toNat ≤ e.retryCnt.toNat)

/-- RETRY_CNT + 1, saturating at 0xFFFF (R144, D30). -/
def retryCntNext (c : BitVec 16) : BitVec 16 := if c = 0xFFFF#16 then c else c + 1#16

/-- The STATUS word (10_state.md R38); bits 7:5, 15 and 31:26 are reserved and read 0. -/
def statusWord (e : Engine) : Word :=
  place (BitVec.ofBool e.run) 0 ||| place (BitVec.ofBool e.done) 1 ||| place (BitVec.ofBool e.err) 2 |||
    place (BitVec.ofBool e.valid) 3 ||| place (BitVec.ofBool e.bound) 4 ||| place (stateCode e.state) 8 |||
    place (errKindCode e.errkind) 12 ||| place e.buserr 16 ||| place (opCode e.op) 24

/-- The CONFIG word (R39); bit 7 and bits 31:16 read 0. -/
def configWord (e : Engine) : Word := place e.addr 0 ||| place e.busref 8

end Sys2Proof.Machine
end

