-- ==== Sys2Proof/Machine/Ops.lean ====
section
/-! DEFINITION. The named operations the meanings are made of: the instances, the two bus primitives, acceptance,
raise and Complete, the host's register accesses, reset. -/

namespace Sys2Proof.Machine

open Sys2Proof

/-- What a meaning answers. -/
abbrev Result := Host.Outcome State Fault Refusal

/-! ### State updates -/

/-- The registers of the instance in focus become `e`; nothing else changes. -/
def State.setEng (s : State) (e : Engine) : State := { s with eng := e }

/-- An operation delivers `d` to its caller. -/
def State.deliver (s : State) (d : Delivered) : State := { s with out := some d }

/-- One event is appended to the history (20_memory.md R70). -/
def State.record (s : State) (ev : BusEvent) : State := { s with history := s.history ++ [ev] }

/-! ### Instances (10_state.md R20; log 2) -/

/-- Instance `k` out of the parked ones, and the rest. -/
def takeParked (k : Nat) : List (Nat × Engine) → Option (Engine × List (Nat × Engine))
  | [] => none
  | (j, e) :: r =>
    if j = k then some (e, r) else
    match takeParked k r with
    | some (e', r') => some (e', (j, e) :: r')
    | none => none

/-- The state with instance `k` in focus, if it exists. -/
def focus (k : Nat) (s : State) : Option State :=
  if k = s.inst then some s else
  match takeParked k s.parked with
  | some (e, r) => some { s with inst := k, eng := e, parked := (s.inst, s.eng) :: r }
  | none => none

/-- The registers of instance `k`, if it exists. -/
def engineOf (s : State) (k : Nat) : Option Engine :=
  if k = s.inst then some s.eng else (takeParked k s.parked).map Prod.fst

/-- The instance that has waited longest: the last of the parked ones, or the only one there is (log 1). -/
def longestWaiting (s : State) : Nat :=
  match s.parked.getLast? with
  | some p => p.1
  | none => s.inst

/-! ### The transport (20_memory.md R61 to R63) -/

/-- The device of the engine: the one address it is bound to (00_scope.md R6, 20_memory.md R60). -/
def ownDevice (a : BusAddr) (e : Engine) : Bool := e.bound && e.addr == a

/-- BusTrigger(bus, addr): one addressed write of no bytes, single-shot; the oracle answers, the event is
recorded (R61, R63, R70). The answer is the next scripted one to a trigger, wherever it stood among those to reads and
whichever instance, bus and address ask: DESIGN CHOICE (log 3). -/
def busTrigger (bus : BusSel) (addr : BusAddr) (s : State) : TrigAnswer × State :=
  match s.trigScript with
  | a :: rest => (a, { s with trigScript := rest }.record (.trig s.inst bus addr a))
  | [] =>
    (Config.oracleTrig s.draws bus addr,
      { s with draws := s.draws + 1 }.record (.trig s.inst bus addr (Config.oracleTrig s.draws bus addr)))

/-- BusRead4(bus, addr): one addressed read of four bytes, single-shot (R62, R63, R70). The answer is the next scripted
one to a read, wherever it stood among those to triggers and whichever instance, bus and address ask: DESIGN CHOICE
(log 3). -/
def busRead4 (bus : BusSel) (addr : BusAddr) (s : State) : ReadAnswer × State :=
  match s.readScript with
  | a :: rest => (a, { s with readScript := rest }.record (.read s.inst bus addr a))
  | [] =>
    (Config.oracleRead s.draws bus addr,
      { s with draws := s.draws + 1 }.record (.read s.inst bus addr (Config.oracleRead s.draws bus addr)))

/-- Delay(ms): at least `ms` milliseconds pass; the event is recorded (41_sequencer.md R146; log 18). -/
def delay (ms : Nat) (s : State) : State := s.record (.delay s.inst ms)

/-! ### Completion and failure (41_sequencer.md R150, 60_exceptions.md R206) -/

/-- +0.0, the lossy sentinel (40_host_commands.md R124). -/
def lossySentinel : B32 := 0x00000000#32

/-- Complete(success) (R150). F, HC and TC keep what the step left in them until the next acceptance or reset: what
they hold between cycles R29 leaves unspecified. DESIGN CHOICE (log 22). -/
def completeSuccess (e : Engine) : Engine :=
  { e with
    val := match e.op with
      | .rdt => e.temp
      | .rdh => e.hum
      | .acq => e.val
    run := false
    done := true }

/-- Complete(failure) (R150). -/
def completeFailure (e : Engine) : Engine :=
  { e with
    hum := none
    temp := none
    val := match e.op with
      | .rdt => some lossySentinel
      | .rdh => some lossySentinel
      | .acq => e.val
    err := true
    run := false
    done := true }

/-- The failures a command can end in (60_exceptions.md R201). -/
inductive Failure where
  | transportError (e : BusErr)
  | notReadyTimeout
  | initError
  | cmdRefused
  deriving DecidableEq, Repr

/-- Failure entry: what `raise` and `Refuse` do, the block's one way of taking an exception (R206). -/
def raise (f : Failure) (e : Engine) : Engine :=
  match f with
  | .transportError c =>
    completeFailure { e with buserr := c, errkind := .transportError, state := .failedTransport }
  | .notReadyTimeout => completeFailure { e with errkind := .notReadyTimeout, state := .failedTimeout }
  | .initError => { e with errkind := .initError, err := true, done := true }
  | .cmdRefused => { e with errkind := .cmdRefused, err := true, done := true }

/-- The prologue of command acceptance, which is also the only return from a failure (40_host_commands.md R120,
60_exceptions.md R208). -/
def acceptPrologue (e : Engine) : Engine :=
  { e with
    done := false
    err := false
    valid := false
    errkind := .none
    buserr := 0#8
    state := .idle
    retryCnt := 0#16
    hum := none
    temp := none
    val := none
    frame := none
    hc := none
    tc := none }

/-- A write of CMD: ignored while RUN = 1 (R121), else the prologue and then the command's own part (R120). -/
def command (body : Engine → Engine) (s : State) : State :=
  if s.eng.run then s else s.setEng (body (acceptPrologue s.eng))

/-- The start of a cycle: refused while unbound, else OP and RUN (R123 to R125). -/
def startCycle (op : Op) (e : Engine) : Engine :=
  if e.bound then { e with op := op, run := true } else raise .cmdRefused e

/-- INIT's own part (R122). -/
def bindHandle (cfg : Config) (bus : BusSel) (addr : BusAddr) (e : Engine) : Engine :=
  if e.bound then raise .cmdRefused e
  else if cfg.busPresent.contains bus then { e with busref := bus, addr := addr, bound := true, done := true }
  else raise .initError e

/-! ### The sequencer's parts -/

/-- The precondition common to the sequencer steps: RUN = 1 and STATE as named (41_sequencer.md R140). -/
def enabled (st : SeqState) (e : Engine) : Bool := e.run && e.state == st

/-- A step that exists only where its precondition holds (R140; 93_implementation_defined.md, "refuse"). -/
def whenEnabled (c : Bool) (s : State) : Result := if c then .next s else .refused .stepNotEnabled

/-- The frame that reading F[0..3] gives, and the state after reading. Where the registers hold no value the
content is a free value, and the registers hold it from then on (10_state.md R29, U8; log 4). -/
def readFrame (s : State) : Frame × State :=
  match s.eng.frame with
  | some f => (f, s)
  | none =>
    (Config.freeFrame s.draws,
      { s with draws := s.draws + 1 }.setEng { s.eng with frame := some (Config.freeFrame s.draws) })

/-- What a trigger's answer does to the registers (R141). -/
def afterTrigger (a : TrigAnswer) (e : Engine) : Engine :=
  match a with
  | .ok => { e with state := .triggered }
  | .err c => raise (.transportError c) e

/-- What a read's answer does to the registers (R142, R144): all four bytes on success, none on failure. -/
def afterRead (a : ReadAnswer) (e : Engine) : Engine :=
  match a with
  | .ok f => { e with frame := some f, state := .reading }
  | .err c => raise (.transportError c) e

/-- The status check (R143): only bits 7:6 of byte 0 are inspected. -/
def gateFrame (f : Frame) (e : Engine) : Engine :=
  { e with frame := some f, state := if parseStatus f.b0 = Config.statusValid then .ready else .notReady }

/-- F_DECODE (42_decoder_scaler.md R178). -/
def decodeReading (ev : FpEval) (f : Frame) : B32 × B32 :=
  (scaleH ev (parseHcode f.b0 f.b1), scaleT ev (parseTcode f.b2 f.b3))

/-- What the decode step writes (41_sequencer.md R147). -/
def decodeFrameRegs (ev : FpEval) (f : Frame) (e : Engine) : Engine :=
  completeSuccess
    { e with
      hc := some (parseHcode f.b0 f.b1)
      tc := some (parseTcode f.b2 f.b3)
      hum := some (decodeReading ev f).1
      temp := some (decodeReading ev f).2
      valid := true
      state := .decoded }

/-! ### The host's register accesses (10_state.md R37 to R41, 20_memory.md R67) -/

/-- What the register at a word offset reads as; `none` where it holds no_value (R37, R33; CMD reads 0; offsets
from 0x20 up read 0, R41). -/
def readReg (e : Engine) (off : Nat) : Option Word :=
  match off with
  | 0x00 => some 0#32
  | 0x04 => some (statusWord e)
  | 0x08 => some (configWord e)
  | 0x0C => some (place e.retryLimit 0)
  | 0x10 => some (place e.retryCnt 0)
  | 0x14 => e.hum
  | 0x18 => e.temp
  | 0x1C => e.val
  | _ => some 0#32

/-- What a write to a register other than CMD does: RETRY_LIMIT while RUN = 0, else nothing (R128, R37). -/
def writeReg (off : Nat) (v : Word) (e : Engine) : Engine :=
  if off = 0x0C ∧ e.run = false then { e with retryLimit := v.extractLsb' 0 16 } else e

/-- Only a whole aligned word is supported (20_memory.md R67). -/
def alignedWord (off : Nat) (size : AccessSize) : Bool := size == .word && off % 4 == 0

/-- A host read delivers the register's word or, where the register holds no_value, a free value, drawn anew by each
read; the register goes on holding no_value (10_state.md R33, U7; log 5). -/
def deliverRead (v : Option Word) (s : State) : State :=
  match v with
  | some w => s.deliver (.hostWord w)
  | none => { s with draws := s.draws + 1 }.deliver (.hostWord (Config.freeResult s.draws))

/-- One host access to a register other than a write of CMD (40_host_commands.md R127, R128). -/
def hostAccess (a : HostAccess) (s : State) : Result :=
  match a with
  | .read off size =>
    if alignedWord off size then .next (deliverRead (readReg s.eng off) s) else .refused .notAlignedWord
  | .write off size v =>
    if alignedWord off size then .next (s.setEng (writeReg off v s.eng)) else .refused .notAlignedWord

/-- Reset of the instance in focus (70_reset_and_hazards.md R240 to R242): every register of R45, no bus event. -/
def resetEngine (s : State) : State := s.setEng Engine.reset

/-- What of the step in progress the history has when a reset falls: of S_RETRY, while its read is in progress, the
completed delay (R242, 41_sequencer.md R144); where S_RETRY is not the step, nothing. The transaction that is cut short
takes no scripted answer and draws no free value, which U13 and R106 leave open, so the next transaction gets the answer
that it would have got. DESIGN CHOICE (log 13). -/
def completedPart (m : ResetMoment) (s : State) : State :=
  match m with
  | .betweenSteps => s
  | .inRetryRead =>
    if enabled .notReady s.eng && !limitReached s.eng then delay Config.retryDelayMs s else s

/-- Reset at a moment: what had completed stays recorded, the registers are reset (R240, R242). -/
def resetAt (m : ResetMoment) (s : State) : State := resetEngine (completedPart m s)

end Sys2Proof.Machine
end

