-- ==== Sys2Proof/Machine/Bus.lean ====
section
/-! DEFINITION. The meanings of the BUSTXN rows, the transport primitives by themselves (20_memory.md R61, R62), and
of the FRAME rows, the status check on a presented frame (41_sequencer.md R143; log 8). -/

namespace Sys2Proof.Machine

open Sys2Proof

/-- TRIGGER: BusTrigger(BUSREF, ADDR); the answer is delivered, no register of the engine changes (R61). An engine
issues it to its own device alone (00_scope.md R6, R60). That the row runs by itself, outside S_TRIG, is a DESIGN
CHOICE (log 7). -/
def execTrigger (a : BusAddr) (s : State) : Result :=
  if ownDevice a s.eng then
    .next ((busTrigger s.eng.busref a s).2.deliver (.trig (busTrigger s.eng.busref a s).1))
  else .refused .notOwnDevice

/-- READ4: BusRead4(BUSREF, ADDR); the answer is delivered, no register of the engine changes (R62). An engine issues it
to its own device alone (R6, R60). That the row runs by itself, outside S_READ and S_RETRY, is a DESIGN CHOICE
(log 7). -/
def execRead4 (a : BusAddr) (s : State) : Result :=
  if ownDevice a s.eng then
    .next ((busRead4 s.eng.busref a s).2.deliver (.read (busRead4 s.eng.busref a s).1))
  else .refused .notOwnDevice

/-- The status check on a frame of status 00 (R143, 30_encoding.md R92). -/
def execFrameValid (f : Frame) (s : State) : Result :=
  whenEnabled (enabled .reading s.eng) (s.setEng (gateFrame f s.eng))

/-- The status check on a frame of status 01 (R143, R92). -/
def execFrameNotready01 (f : Frame) (s : State) : Result :=
  whenEnabled (enabled .reading s.eng) (s.setEng (gateFrame f s.eng))

/-- The status check on a frame of status 10 (R143, R92). -/
def execFrameNotready10 (f : Frame) (s : State) : Result :=
  whenEnabled (enabled .reading s.eng) (s.setEng (gateFrame f s.eng))

/-- The status check on a frame of status 11 (R143, R92). -/
def execFrameNotready11 (f : Frame) (s : State) : Result :=
  whenEnabled (enabled .reading s.eng) (s.setEng (gateFrame f s.eng))

end Sys2Proof.Machine
end

