-- ==== Sys2Proof/Machine/Commands.lean ====
section
/-! DEFINITION. The meanings of the CMD rows (40_host_commands.md): each is one write of the CMD register. -/

namespace Sys2Proof.Machine

open Sys2Proof

/-- INIT bus, addr (R122). -/
def execInit (bus : BusSel) (addr : BusAddr) (s : State) : Result := .next (command (bindHandle s.cfg bus addr) s)

/-- ACQ (R123). -/
def execAcq (s : State) : Result := .next (command (startCycle .acq) s)

/-- RDT (R124). -/
def execRdt (s : State) : Result := .next (command (startCycle .rdt) s)

/-- RDH (R125). -/
def execRdh (s : State) : Result := .next (command (startCycle .rdh) s)

/-- Reserved command code 0x0 (R126, 30_encoding.md R97). -/
def execReservedCmd0 (s : State) : Result := .next (command (raise .cmdRefused) s)

/-- Reserved command code 0x5 (R126). -/
def execReservedCmd5 (s : State) : Result := .next (command (raise .cmdRefused) s)

/-- Reserved command code 0x6 (R126). -/
def execReservedCmd6 (s : State) : Result := .next (command (raise .cmdRefused) s)

/-- Reserved command code 0x7 (R126). -/
def execReservedCmd7 (s : State) : Result := .next (command (raise .cmdRefused) s)

/-- Reserved command code 0x8 (R126). -/
def execReservedCmd8 (s : State) : Result := .next (command (raise .cmdRefused) s)

/-- Reserved command code 0x9 (R126). -/
def execReservedCmd9 (s : State) : Result := .next (command (raise .cmdRefused) s)

/-- Reserved command code 0xA (R126). -/
def execReservedCmdA (s : State) : Result := .next (command (raise .cmdRefused) s)

/-- Reserved command code 0xB (R126). -/
def execReservedCmdB (s : State) : Result := .next (command (raise .cmdRefused) s)

/-- Reserved command code 0xC (R126). -/
def execReservedCmdC (s : State) : Result := .next (command (raise .cmdRefused) s)

/-- Reserved command code 0xD (R126). -/
def execReservedCmdD (s : State) : Result := .next (command (raise .cmdRefused) s)

/-- Reserved command code 0xE (R126). -/
def execReservedCmdE (s : State) : Result := .next (command (raise .cmdRefused) s)

/-- Reserved command code 0xF (R126). -/
def execReservedCmdF (s : State) : Result := .next (command (raise .cmdRefused) s)

end Sys2Proof.Machine
end

