-- ==== Sys2Proof/Machine/Datapath.lean ====
section
/-! DEFINITION. The meanings of the DATAPATH rows (42_decoder_scaler.md): combinational functions, which deliver a
result and change no register (R170). -/

namespace Sys2Proof.Machine

open Sys2Proof

/-- F_STATUS (R172). -/
def execFStatus (b0 : Byte) (s : State) : Result := .next (s.deliver (.status (parseStatus b0)))

/-- F_HCODE (R173). -/
def execFHcode (b0 b1 : Byte) (s : State) : Result := .next (s.deliver (.code (parseHcode b0 b1)))

/-- F_TCODE (R174). -/
def execFTcode (b2 b3 : Byte) (s : State) : Result := .next (s.deliver (.code (parseTcode b2 b3)))

/-- F_SCALEH (R177). -/
def execFScaleh (hc : Code) (s : State) : Result := .next (s.deliver (.b32 (scaleH s.cfg.fpEval hc)))

/-- F_SCALET (R179). -/
def execFScalet (tc : Code) (s : State) : Result := .next (s.deliver (.b32 (scaleT s.cfg.fpEval tc)))

/-- F_DECODE (R178). -/
def execFDecode (b0 b1 b2 b3 : Byte) (s : State) : Result :=
  .next (s.deliver (.reading (decodeReading s.cfg.fpEval { b0 := b0, b1 := b1, b2 := b2, b3 := b3 }).1
    (decodeReading s.cfg.fpEval { b0 := b0, b1 := b1, b2 := b2, b3 := b3 }).2))

end Sys2Proof.Machine
end

