-- ==== Sys2Proof/Machine/Sequencer.lean ====
section
/-! DEFINITION. The meanings of the SEQ rows: the atomic steps of the acquisition sequencer (41_sequencer.md). Each
exists only where its precondition holds (R140). -/

namespace Sys2Proof.Machine

open Sys2Proof

/-- S_TRIG (R141). -/
def execSTrig (s : State) : Result :=
  whenEnabled (enabled .idle s.eng)
    ((busTrigger s.eng.busref s.eng.addr s).2.setEng
      (afterTrigger (busTrigger s.eng.busref s.eng.addr s).1 s.eng))

/-- S_READ (R142). -/
def execSRead (s : State) : Result :=
  whenEnabled (enabled .triggered s.eng)
    ((busRead4 s.eng.busref s.eng.addr s).2.setEng
      (afterRead (busRead4 s.eng.busref s.eng.addr s).1 s.eng))

/-- S_CHK (R143). -/
def execSChk (s : State) : Result :=
  whenEnabled (enabled .reading s.eng)
    ((readFrame s).2.setEng (gateFrame (readFrame s).1 s.eng))

/-- S_RETRY (R144): the delay, the count, then the read. -/
def execSRetry (s : State) : Result :=
  whenEnabled (enabled .notReady s.eng && !limitReached s.eng)
    ((busRead4 s.eng.busref s.eng.addr (delay Config.retryDelayMs s)).2.setEng
      (afterRead (busRead4 s.eng.busref s.eng.addr (delay Config.retryDelayMs s)).1
        { s.eng with retryCnt := retryCntNext s.eng.retryCnt }))

/-- S_TIMEOUT (R145). -/
def execSTimeout (s : State) : Result :=
  whenEnabled (enabled .notReady s.eng && limitReached s.eng)
    (s.setEng (raise .notReadyTimeout s.eng))

/-- S_DEC (R147). -/
def execSDec (s : State) : Result :=
  whenEnabled (enabled .ready s.eng)
    ((readFrame s).2.setEng (decodeFrameRegs s.cfg.fpEval (readFrame s).1 (readFrame s).2.eng))

end Sys2Proof.Machine
end

