-- ==== Sys2Proof/Machine/Dispatch.lean ====
section
/-! DEFINITION. One arm for each operation of the table. -/

namespace Sys2Proof.Machine

open Sys2Proof

def exec (i : Instr) (s : State) : Host.Outcome State Fault Refusal :=
  match i with
  | .init bus addr => Sys2Proof.Machine.execInit bus addr s
  | .acq => Sys2Proof.Machine.execAcq s
  | .rdt => Sys2Proof.Machine.execRdt s
  | .rdh => Sys2Proof.Machine.execRdh s
  | .reservedCmd0 => Sys2Proof.Machine.execReservedCmd0 s
  | .reservedCmd5 => Sys2Proof.Machine.execReservedCmd5 s
  | .reservedCmd6 => Sys2Proof.Machine.execReservedCmd6 s
  | .reservedCmd7 => Sys2Proof.Machine.execReservedCmd7 s
  | .reservedCmd8 => Sys2Proof.Machine.execReservedCmd8 s
  | .reservedCmd9 => Sys2Proof.Machine.execReservedCmd9 s
  | .reservedCmdA => Sys2Proof.Machine.execReservedCmdA s
  | .reservedCmdB => Sys2Proof.Machine.execReservedCmdB s
  | .reservedCmdC => Sys2Proof.Machine.execReservedCmdC s
  | .reservedCmdD => Sys2Proof.Machine.execReservedCmdD s
  | .reservedCmdE => Sys2Proof.Machine.execReservedCmdE s
  | .reservedCmdF => Sys2Proof.Machine.execReservedCmdF s
  | .trigger a => Sys2Proof.Machine.execTrigger a s
  | .read4 a => Sys2Proof.Machine.execRead4 a s
  | .frameValid f => Sys2Proof.Machine.execFrameValid f s
  | .frameNotready01 f => Sys2Proof.Machine.execFrameNotready01 f s
  | .frameNotready10 f => Sys2Proof.Machine.execFrameNotready10 f s
  | .frameNotready11 f => Sys2Proof.Machine.execFrameNotready11 f s
  | .sTrig => Sys2Proof.Machine.execSTrig s
  | .sRead => Sys2Proof.Machine.execSRead s
  | .sChk => Sys2Proof.Machine.execSChk s
  | .sRetry => Sys2Proof.Machine.execSRetry s
  | .sTimeout => Sys2Proof.Machine.execSTimeout s
  | .sDec => Sys2Proof.Machine.execSDec s
  | .fStatus b0 => Sys2Proof.Machine.execFStatus b0 s
  | .fHcode b0 b1 => Sys2Proof.Machine.execFHcode b0 b1 s
  | .fTcode b2 b3 => Sys2Proof.Machine.execFTcode b2 b3 s
  | .fScaleh hc => Sys2Proof.Machine.execFScaleh hc s
  | .fScalet tc => Sys2Proof.Machine.execFScalet tc s
  | .fDecode b0 b1 b2 b3 => Sys2Proof.Machine.execFDecode b0 b1 b2 b3 s

end Sys2Proof.Machine
end

