-- ==== Sys2Proof/Machine/Fetch.lean ====
section
/-! DEFINITION. What the next turn asks for: which instance comes into focus, and which operation its agent runs
(00_scope.md R14, 41_sequencer.md R140, 10_state.md R40). -/

namespace Sys2Proof.Machine

open Sys2Proof

/-- What the next step has to do, and the state in which it does it. -/
inductive Fetched where
  /-- Run an operation of the table. -/
  | instr (i : Instr) (s : State)
  /-- A host access that is not a write of CMD. -/
  | access (a : HostAccess) (s : State)
  /-- Reset the instance in focus. -/
  | reset (m : ResetMoment) (s : State)
  /-- The sequencer has no step (RUN = 0, R140): nothing happens. -/
  | idle (s : State)
  /-- The word on the port selects no operation. -/
  | undecodable (r : Reject)
  /-- The turn names an instance that does not exist. -/
  | noInstance
  deriving DecidableEq, Repr

/-- Decode a word that arrives on a port of the instance in focus. -/
def fetchWord (p : Port) (w : Word) (s : State) : Fetched :=
  match decode p w with
  | .ok i => .instr i s
  | .error r => .undecodable r

/-- The SEQ word of an engine: the value of STATE (30_encoding.md R98). -/
def seqWord (e : Engine) : Word := place (stateCode e.state) 0

/-- The sequencer's turn: a step exactly when RUN = 1, chosen by STATE and LimitReached (41_sequencer.md R140). -/
def fetchSequencer (s : State) : Fetched :=
  if s.eng.run then fetchWord (.seq (limitReached s.eng)) (seqWord s.eng) s else .idle s

/-- The host's turn: a whole-word write at offset 0x00 is a command word (10_state.md R40). -/
def fetchHost (a : HostAccess) (s : State) : Fetched :=
  match a with
  | .write 0 .word w => fetchWord .cmd w s
  | a => .access a s

/-- The instance a turn is about. -/
def Turn.target : Turn → Nat
  | .host k _ => k
  | .reset k _ => k
  | .sequencer k => k
  | .port k _ _ => k

/-- A turn, its instance in focus. -/
def fetchTurn (t : Turn) (s : State) : Fetched :=
  match t with
  | .host _ a => fetchHost a s
  | .reset _ m => .reset m s
  | .sequencer _ => fetchSequencer s
  | .port _ p w => fetchWord p w s

/-- The instance that moves next: the one of the next turn; with no turn left, the one that has waited longest, so
that every instance goes on moving (00_scope.md R16, fairness; log 1). -/
def mover (s : State) : Nat :=
  match s.turns with
  | [] => longestWaiting s
  | t :: _ => t.target

/-- The next turn, its instance in focus; with none left, the mover's sequencer moves (log 1). -/
def fetch (s : State) : Fetched :=
  match focus (mover s) { s with turns := s.turns.tail } with
  | none => .noInstance
  | some u =>
    match s.turns with
    | [] => fetchSequencer u
    | t :: _ => fetchTurn t u

/-- The engine made ready for a sequencer step whose SEQ word is `w`: RUN = 1, STATE the value, and the bound lifted
where it is already reached, since a bare word 3 is read as S_RETRY (log 10). -/
def readyForSeq (w : Nat) (e : Engine) : Engine :=
  match stateOfCode w with
  | some st => { e with run := true, state := st, retryLimit := if limitReached e then 0xFFFF#16 else e.retryLimit }
  | none => e

/-- The state in which the very next step runs a bare table word (log 10). -/
def placeWord (nbits w : Nat) (s : State) : State :=
  match tablePort nbits w with
  | none => s
  | some .cmd => { s with turns := .host s.inst (.write 0 .word (BitVec.ofNat 32 w)) :: s.turns }
  | some (.seq _) => { s with turns := .sequencer s.inst :: s.turns, eng := readyForSeq w s.eng }
  | some .frame =>
    { s with
      turns := .port s.inst .frame (BitVec.ofNat 32 w) :: s.turns
      eng := { s.eng with run := true, state := .reading } }
  | some .bus =>
    { s with
      turns := .port s.inst .bus (BitVec.ofNat 32 w) :: s.turns
      eng := { s.eng with bound := true, addr := (BitVec.ofNat 32 w).extractLsb' 1 7 } }
  | some p => { s with turns := .port s.inst p (BitVec.ofNat 32 w) :: s.turns }

end Sys2Proof.Machine
end

