-- ==== Sys2Proof/Machine/Step.lean ====
section
/-! DEFINITION. One step of the machine: the next turn's operation, run. -/

namespace Sys2Proof.Machine

open Sys2Proof

/-- One step: whatever the next turn asks for (41_sequencer.md R140, 40_host_commands.md, 70_reset_and_hazards.md
R240). -/
def step (s : State) : Host.Outcome State Fault Refusal :=
  match fetch s with
  | .instr i s' => exec i s'
  | .access a s' => hostAccess a s'
  | .reset m s' => .next (resetAt m s')
  | .idle s' => .next s'
  | .undecodable r => .refused (.undecodable r)
  | .noInstance => .fault .noSuchInstance

/-- `s` with a bare table word placed where the next step finds it (log 10). -/
def State.withFetchWord (s : State) (nbits w : Nat) : State := placeWord nbits w s

end Sys2Proof.Machine
end

