-- ==== Sys2Proof/Safety.lean ====
section
/-! DEFINITION. What the statements say about states and histories: the invariant of 10_state.md R46, the shape of a
cycle's history (20_memory.md R74), and the premises the spec puts on the host and the platform (R77, R218). -/

namespace Sys2Proof.Machine

open Sys2Proof

/-- The states that STATE can name while RUN = 1 (10_state.md R46 (a)). -/
def SeqState.inCycle : SeqState → Bool
  | .idle | .triggered | .reading | .notReady | .ready => true
  | .decoded | .failedTransport | .failedTimeout => false

/-- The terminal states (41_sequencer.md R149). -/
def SeqState.terminal : SeqState → Bool
  | .decoded | .failedTransport | .failedTimeout => true
  | .idle | .triggered | .reading | .notReady | .ready => false

/-- The invariant of one engine: R46 (a) to (g), and what a step needs beside them. -/
structure EngineInv (e : Engine) : Prop where
  /-- R46 (a). -/
  running : e.run = true →
    e.bound = true ∧ e.done = false ∧ e.err = false ∧ e.valid = false ∧ e.state.inCycle = true
  /-- R46 (b). -/
  stopped : e.run = false → e.state = .idle ∨ e.state.terminal = true
  /-- R46 (c). -/
  validDecoded : e.valid = true → e.state = .decoded ∧ e.done = true ∧ e.err = false
  /-- R46 (d). -/
  errIff : e.err = true ↔ e.done = true ∧ e.errkind ≠ .none
  /-- R46 (e), the transport half. -/
  failedTransportKind : e.state = .failedTransport → e.errkind = .transportError
  /-- R46 (e), the timeout half. -/
  failedTimeoutKind : e.state = .failedTimeout → e.errkind = .notReadyTimeout
  /-- R46 (f). -/
  commandFailureIdle : e.errkind = .initError ∨ e.errkind = .cmdRefused → e.state = .idle
  /-- R46 (g), during a cycle. -/
  retryBound : e.run = true → e.retryLimit ≠ Config.retryUnbounded → e.retryCnt.toNat ≤ e.retryLimit.toNat
  /-- R35: ERRKIND is None from acceptance until the step that fails. -/
  noKindBeforeDone : e.done = false → e.errkind = .none
  /-- R36: BUSERR reads 0 unless ERRKIND = TransportError. -/
  buserrZero : e.errkind ≠ .transportError → e.buserr = 0#8
  /-- R33: HUM holds a value exactly when VALID = 1. -/
  humIff : e.hum.isSome = e.valid
  /-- R33: TEMP holds a value exactly when VALID = 1. -/
  tempIff : e.temp.isSome = e.valid
  /-- R32, R150: VAL holds a value exactly after a completed cycle of RDT or RDH. -/
  valIff : e.val.isSome = (!e.run && e.op != .acq && e.state.terminal)
  /-- R140: a cycle starts with RETRY_CNT = 0. -/
  freshCount : e.run = true → e.state = .idle ∨ e.state = .triggered → e.retryCnt = 0#16
  /-- R142, R144: the frame registers hold a frame from the first successful read of a cycle on. -/
  frameHeld : e.run = true → e.state = .reading ∨ e.state = .notReady ∨ e.state = .ready → e.frame.isSome = true
  /-- R143: only a frame of status 00 is Ready. -/
  readyValid : e.run = true → e.state = .ready → ∀ f, e.frame = some f → parseStatus f.b0 = Config.statusValid
  /-- R143: a frame of status 00 is never NotReady. -/
  notReadyStatus : e.run = true → e.state = .notReady → ∀ f, e.frame = some f →
    parseStatus f.b0 ≠ Config.statusValid

/-- The invariant of the machine: every instance meets its own, and no two have one number (R20). -/
structure Inv (s : State) : Prop where
  focused : EngineInv s.eng
  others : ∀ p ∈ s.parked, EngineInv p.2
  distinct : (s.inst :: s.parked.map Prod.fst).Nodup

/-- The answer of a read is a frame that is not ready (30_encoding.md R92). -/
def notReadyAnswer : ReadAnswer → Bool
  | .ok f => parseStatus f.b0 != Config.statusValid
  | .err _ => false

/-- The rest of a cycle's history after a read answered `last`: pairs of the delay and a read, each only after a
frame that was not ready (20_memory.md R74, 41_sequencer.md R144). -/
def cycleTail (inst : Nat) (bus : BusSel) (addr : BusAddr) (last : ReadAnswer) : List BusEvent → Bool
  | [] => true
  | .delay i ms :: .read j b a r :: rest =>
    notReadyAnswer last && i == inst && ms == Config.retryDelayMs && j == inst && b == bus && a == addr &&
      cycleTail inst bus addr r rest
  | _ => false

/-- The history of one cycle so far: one Trig; then, if it succeeded, one Read; then pairs Delay, Read (R74). -/
def cycleShape (inst : Nat) (bus : BusSel) (addr : BusAddr) : List BusEvent → Bool
  | [] => true
  | [.trig i b a _] => i == inst && b == bus && a == addr
  | .trig i b a .ok :: .read j c d r :: rest =>
    i == inst && b == bus && a == addr && j == inst && c == bus && d == addr && cycleTail inst bus addr r rest
  | _ => false

/-- The events of the reads of a cycle that sees the frames `bad` not ready and then the frame `last`: a read of
each, and a delay between two reads (R144, R151). -/
def readEvents (inst : Nat) (bus : BusSel) (addr : BusAddr) (bad : List Frame) (last : Frame) : List BusEvent :=
  bad.flatMap (fun f => [.read inst bus addr (.ok f), .delay inst Config.retryDelayMs]) ++
    [.read inst bus addr (.ok last)]

/-- The order in which the instances move when no turn is left, the next one first (00_scope.md R16; log 1). -/
def waitingOrder (s : State) : List Nat := (s.parked.map Prod.fst).reverse ++ [s.inst]

/-- In the next `n` steps only the sequencer of the instance in focus moves: the next `n` turns are its own, or there is
no other instance and no turn left. -/
def alone (n : Nat) (s : State) : Prop :=
  (s.turns = [] ∧ s.parked = []) ∨ ∃ rest, s.turns = List.replicate n (.sequencer s.inst) ++ rest

/-- An event is a read. -/
def BusEvent.isRead : BusEvent → Bool
  | .read _ _ _ _ => true
  | .trig _ _ _ _ => false
  | .delay _ _ => false

/-- An event is a trigger. -/
def BusEvent.isTrig : BusEvent → Bool
  | .trig _ _ _ _ => true
  | .read _ _ _ _ => false
  | .delay _ _ => false

/-- Two states that agree on everything but the model's records of what happened (history, draws, out). -/
def agree (s t : State) : Prop :=
  { s with history := [], draws := 0, out := none } = { t with history := [], draws := 0, out := none }

/-- The instruction is a row of format CMD (30_encoding.md R95). -/
def isCmdRow (i : Instr) : Bool := portOf i == .cmd

/-- The instruction is a reserved command code (R97). -/
def isReservedRow : Instr → Bool
  | .reservedCmd0 | .reservedCmd5 | .reservedCmd6 | .reservedCmd7 | .reservedCmd8 | .reservedCmd9
  | .reservedCmdA | .reservedCmdB | .reservedCmdC | .reservedCmdD | .reservedCmdE | .reservedCmdF => true
  | .init _ _ | .acq | .rdt | .rdh | .trigger _ | .read4 _
  | .frameValid _ | .frameNotready01 _ | .frameNotready10 _ | .frameNotready11 _
  | .sTrig | .sRead | .sChk | .sRetry | .sTimeout | .sDec
  | .fStatus _ | .fHcode _ _ | .fTcode _ _ | .fScaleh _ | .fScalet _ | .fDecode _ _ _ _ => false

/-- The exact value of a finite binary32, in ℚ (30_encoding.md R105). -/
def b32Value (x : B32) : ℚ := (b32Ratio x).toRat

/-- `x` is a finite binary32 nearest to `q`, the even one of two that are equally near (42_decoder_scaler.md R176). -/
def isNearest (x : B32) (q : ℚ) : Prop :=
  b32Finite x = true ∧ ∀ y : B32, b32Finite y = true →
    |b32Value x - q| ≤ |b32Value y - q| ∧
    (|b32Value x - q| = |b32Value y - q| → b32Value y ≠ b32Value x → x.getLsbD 0 = false)

/-- The exact humidity of a code, hc * 100 / 16383 (R177). -/
def humidityOf (hc : Code) : ℚ := (hc.toNat : ℚ) * 100 / 16383

/-- The exact temperature of a code, tc * 165 / 16383 - 40 (R179). -/
def temperatureOf (tc : Code) : ℚ := (tc.toNat : ℚ) * 165 / 16383 - 40

/-- The premise the spec recommends for a claim that a command starts a cycle: the host writes CMD only when BUSY = 0
(60_exceptions.md R218 (c)). -/
def commandsWhenIdle (s : State) : Prop :=
  ∀ i t, fetch s = .instr i t → isCmdRow i = true → t.eng.run = false

/-- The platform's duty of bus exclusivity, seen in one state: no other instance runs a cycle against the device of
the instance in focus (20_memory.md R77 (b); log 14). -/
def busExclusive (s : State) : Prop :=
  s.eng.run = true → ∀ p ∈ s.parked, p.2.run = true → ¬(p.2.busref = s.eng.busref ∧ p.2.addr = s.eng.addr)

end Sys2Proof.Machine
end

