-- ==== Sys2Proof/WellFormed.lean ====
section
/-! DEFINITION. When a term of Instr is an operation of the table. The widths are in the types; what is left is
that a frame row carries a frame of its own status class (30_encoding.md R92, R108). -/

namespace Sys2Proof

/-- The check: each frame row carries its own status code. -/
def Instr.wf : Instr → Bool
  | .frameValid f => frameStatus f == 0#2
  | .frameNotready01 f => frameStatus f == 1#2
  | .frameNotready10 f => frameStatus f == 2#2
  | .frameNotready11 f => frameStatus f == 3#2
  | .init _ _ | .acq | .rdt | .rdh
  | .reservedCmd0 | .reservedCmd5 | .reservedCmd6 | .reservedCmd7 | .reservedCmd8 | .reservedCmd9
  | .reservedCmdA | .reservedCmdB | .reservedCmdC | .reservedCmdD | .reservedCmdE | .reservedCmdF
  | .trigger _ | .read4 _
  | .sTrig | .sRead | .sChk | .sRetry | .sTimeout | .sDec
  | .fStatus _ | .fHcode _ _ | .fTcode _ _ | .fScaleh _ | .fScalet _ | .fDecode _ _ _ _ => true

/-- A well-formed operation. -/
abbrev WellFormed (i : Instr) : Prop := i.wf = true

end Sys2Proof
end

