-- ==== Sys2Proof/Certificates/Slice0/Obligations.lean ====
section
/-! DEFINITION. The statements for the provers. Each formalises the rule of spec/ its docstring names. -/

open Sys2Proof Sys2Proof.Machine

/-! ### Encodings -/

/-- Decoding the encoding of a well-formed operation on its own port gives it back, every operand at every value. -/
def Obligations.DecodeOfEncode : Prop :=
  ∀ i : Instr, WellFormed i → decode (portOf i) (encode i) = .ok i

/-- On every port but CMD no bit of a decoded word is lost, and what is decoded is well-formed and belongs to the
port (for SEQ, up to the limit flag). -/
def Obligations.EncodeOfDecode : Prop :=
  ∀ (p : Port) (w : Word) (i : Instr), p ≠ .cmd → decode p w = .ok i →
    encode i = w ∧ WellFormed i ∧ (portOf i = p ∨ ∃ b c, portOf i = .seq b ∧ p = .seq c)

/-- R96, R95: the command code map, from OPC alone; INIT's arguments are bits 23:16 and 14:8; every other bit is
ignored. -/
def Obligations.CommandCodeMap : Prop :=
  ∀ w : Word,
    (w.extractLsb' 0 4 = 0x0#4 → decode .cmd w = .ok .reservedCmd0) ∧
    (w.extractLsb' 0 4 = 0x1#4 → decode .cmd w = .ok (.init (w.extractLsb' 16 8) (w.extractLsb' 8 7))) ∧
    (w.extractLsb' 0 4 = 0x2#4 → decode .cmd w = .ok .acq) ∧
    (w.extractLsb' 0 4 = 0x3#4 → decode .cmd w = .ok .rdt) ∧
    (w.extractLsb' 0 4 = 0x4#4 → decode .cmd w = .ok .rdh) ∧
    (w.extractLsb' 0 4 = 0x5#4 → decode .cmd w = .ok .reservedCmd5) ∧
    (w.extractLsb' 0 4 = 0x6#4 → decode .cmd w = .ok .reservedCmd6) ∧
    (w.extractLsb' 0 4 = 0x7#4 → decode .cmd w = .ok .reservedCmd7) ∧
    (w.extractLsb' 0 4 = 0x8#4 → decode .cmd w = .ok .reservedCmd8) ∧
    (w.extractLsb' 0 4 = 0x9#4 → decode .cmd w = .ok .reservedCmd9) ∧
    (w.extractLsb' 0 4 = 0xA#4 → decode .cmd w = .ok .reservedCmdA) ∧
    (w.extractLsb' 0 4 = 0xB#4 → decode .cmd w = .ok .reservedCmdB) ∧
    (w.extractLsb' 0 4 = 0xC#4 → decode .cmd w = .ok .reservedCmdC) ∧
    (w.extractLsb' 0 4 = 0xD#4 → decode .cmd w = .ok .reservedCmdD) ∧
    (w.extractLsb' 0 4 = 0xE#4 → decode .cmd w = .ok .reservedCmdE) ∧
    (w.extractLsb' 0 4 = 0xF#4 → decode .cmd w = .ok .reservedCmdF)

/-- R92: a frame is classified by bits 7:6 of its byte 0 alone, and every 32-bit word is a frame of one class. -/
def Obligations.FrameClassification : Prop :=
  ∀ f : Frame,
    (f.b0.extractLsb' 6 2 = 0b00#2 → decode .frame (frameWord f) = .ok (.frameValid f)) ∧
    (f.b0.extractLsb' 6 2 = 0b01#2 → decode .frame (frameWord f) = .ok (.frameNotready01 f)) ∧
    (f.b0.extractLsb' 6 2 = 0b10#2 → decode .frame (frameWord f) = .ok (.frameNotready10 f)) ∧
    (f.b0.extractLsb' 6 2 = 0b11#2 → decode .frame (frameWord f) = .ok (.frameNotready11 f))

/-- R98: the number of each STATE and the step it selects, LimitReached choosing in NotReady; the terminal states and
the numbers 8 to 15 select none. -/
def Obligations.SequencerSelection : Prop :=
  (stateCode .idle = 0x0#4 ∧ stateCode .triggered = 0x1#4 ∧ stateCode .reading = 0x2#4 ∧
    stateCode .notReady = 0x3#4 ∧ stateCode .ready = 0x4#4 ∧ stateCode .decoded = 0x5#4 ∧
    stateCode .failedTransport = 0x6#4 ∧ stateCode .failedTimeout = 0x7#4) ∧
  (∀ b, decode (.seq b) 0x0#32 = .ok .sTrig ∧ decode (.seq b) 0x1#32 = .ok .sRead ∧
    decode (.seq b) 0x2#32 = .ok .sChk ∧ decode (.seq b) 0x4#32 = .ok .sDec) ∧
  decode (.seq false) 0x3#32 = .ok .sRetry ∧ decode (.seq true) 0x3#32 = .ok .sTimeout ∧
  (∀ (b : Bool) (w : Word), 5 ≤ w.toNat → ∀ i, decode (.seq b) w ≠ .ok i)

/-- Words of each format, written out bit by bit from R91, R94, R95, R98, decode to what they stand for. -/
def Obligations.WrittenOutWords : Prop :=
  decode .cmd 0b00000000000000010100010000000001#32 = .ok (.init 0x01#8 0x44#7) ∧
  decode .cmd 0b10100101000000000100010011110001#32 = .ok (.init 0x00#8 0x44#7) ∧
  decode .cmd 0b11111111111111111111111111110010#32 = .ok .acq ∧
  decode .bus 0b10001000#32 = .ok (.trigger 0x44#7) ∧
  decode .bus 0b10001001#32 = .ok (.read4 0x44#7) ∧
  decode .frame 0b00010010001101000100100011010000#32 =
    .ok (.frameValid { b0 := 0x12#8, b1 := 0x34#8, b2 := 0x48#8, b3 := 0xD0#8 }) ∧
  decode .frame 0b10000000101010101011101111001100#32 =
    .ok (.frameNotready10 { b0 := 0x80#8, b1 := 0xAA#8, b2 := 0xBB#8, b3 := 0xCC#8 }) ∧
  decode (.seq true) 0b0011#32 = .ok .sTimeout ∧
  decode .fTcode 0b0100100011010000#32 = .ok (.fTcode 0x48#8 0xD0#8)

/-! ### Host commands -/

/-- R121: a command written while RUN = 1 is ignored; no state changes, not even a flag. -/
def Obligations.CommandIgnoredWhileBusy : Prop :=
  ∀ (i : Instr) (s : State), isCmdRow i = true → s.eng.run = true → exec i s = .next s

/-- R122 (after the prologue of R120): INIT binds the handle where the bus is present, ends in InitError where it is
not, and is refused while bound; the whole next state. -/
def Obligations.InitOutcomes : Prop :=
  ∀ (bus : BusSel) (addr : BusAddr) (s : State), s.eng.run = false →
    (s.eng.bound = true →
      exec (.init bus addr) s = .next { s with eng := { s.eng with
        done := true, err := true, valid := false, errkind := .cmdRefused, buserr := 0#8, state := .idle,
        retryCnt := 0#16, hum := none, temp := none, val := none, frame := none, hc := none, tc := none } }) ∧
    (s.eng.bound = false → s.cfg.busPresent.contains bus = false →
      exec (.init bus addr) s = .next { s with eng := { s.eng with
        done := true, err := true, valid := false, errkind := .initError, buserr := 0#8, state := .idle,
        retryCnt := 0#16, hum := none, temp := none, val := none, frame := none, hc := none, tc := none } }) ∧
    (s.eng.bound = false → s.cfg.busPresent.contains bus = true →
      exec (.init bus addr) s = .next { s with eng := { s.eng with
        busref := bus, addr := addr, bound := true,
        done := true, err := false, valid := false, errkind := .none, buserr := 0#8, state := .idle,
        retryCnt := 0#16, hum := none, temp := none, val := none, frame := none, hc := none, tc := none } })

/-- R126: a reserved code, INIT while bound, and ACQ, RDT, RDH while unbound complete at once as refused; no bus
activity, and nothing else but the prologue's writes changes. -/
def Obligations.RefusedCommands : Prop :=
  ∀ (i : Instr) (s : State), s.eng.run = false →
    (isReservedRow i = true ∨ (s.eng.bound = true ∧ ∃ bus addr, i = .init bus addr) ∨
      (s.eng.bound = false ∧ (i = .acq ∨ i = .rdt ∨ i = .rdh))) →
    exec i s = .next { s with eng := { s.eng with
      done := true, err := true, valid := false, errkind := .cmdRefused, buserr := 0#8, state := .idle,
      retryCnt := 0#16, hum := none, temp := none, val := none, frame := none, hc := none, tc := none } }

/-- R120, R123, R124, R125 at acceptance: a bound engine starts a cycle, OP says which command's; the whole next
state. -/
def Obligations.AcquisitionStarts : Prop :=
  ∀ (i : Instr) (op : Op) (s : State), s.eng.run = false → s.eng.bound = true →
    (i = .acq ∧ op = .acq) ∨ (i = .rdt ∧ op = .rdt) ∨ (i = .rdh ∧ op = .rdh) →
    exec i s = .next { s with eng := { s.eng with
      op := op, run := true,
      done := false, err := false, valid := false, errkind := .none, buserr := 0#8, state := .idle,
      retryCnt := 0#16, hum := none, temp := none, val := none, frame := none, hc := none, tc := none } }

/-- R120: whatever command word is accepted, the results of the command before it are gone, and RETRY_LIMIT and the
world outside the registers are untouched. -/
def Obligations.AcceptanceClearsResults : Prop :=
  ∀ (w : Word) (s : State), s.eng.run = false → ∃ i t, decode .cmd w = .ok i ∧ exec i s = .next t ∧
    t.eng.valid = false ∧ t.eng.buserr = 0#8 ∧ t.eng.state = .idle ∧ t.eng.retryCnt = 0#16 ∧
    t.eng.hum = none ∧ t.eng.temp = none ∧ t.eng.val = none ∧
    t.eng.frame = none ∧ t.eng.hc = none ∧ t.eng.tc = none ∧
    t.eng.retryLimit = s.eng.retryLimit ∧ t.eng.done = !t.eng.run ∧ { t with eng := s.eng } = s

/-! ### Bus transactions and frame classes by themselves -/

/-- R61, R6: BusTrigger is one transaction to the device the engine is bound to, on the bus BUSREF: one event, one
answer, no register changed; an engine that is unbound or bound to another address issues none. The answer is the
script's where one is left, else a free value, it is delivered in `out`, and the row runs by itself: the model's form
of the oracle, of a call's result and of a row (log 3, log 7). -/
def Obligations.TriggerTransaction : Prop :=
  ∀ (a : BusAddr) (s : State),
    (s.eng.bound = true → s.eng.addr = a → ∃ r : TrigAnswer,
      (∀ x rest, s.trigScript = x :: rest → r = x) ∧
      exec (.trigger a) s = .next { s with
        trigScript := s.trigScript.tail
        draws := if s.trigScript.isEmpty then s.draws + 1 else s.draws
        history := s.history ++ [.trig s.inst s.eng.busref a r]
        out := some (.trig r) }) ∧
    (s.eng.bound = false ∨ s.eng.addr ≠ a → exec (.trigger a) s = .refused .notOwnDevice)

/-- R62, R6: BusRead4 is one transaction to the device the engine is bound to that answers exactly four bytes or an
error; no register is written by it; an engine that is unbound or bound to another address issues none. The oracle,
the delivery and the row by itself are the model's form (log 3, log 7). -/
def Obligations.ReadTransaction : Prop :=
  ∀ (a : BusAddr) (s : State),
    (s.eng.bound = true → s.eng.addr = a → ∃ r : ReadAnswer,
      (∀ x rest, s.readScript = x :: rest → r = x) ∧
      exec (.read4 a) s = .next { s with
        readScript := s.readScript.tail
        draws := if s.readScript.isEmpty then s.draws + 1 else s.draws
        history := s.history ++ [.read s.inst s.eng.busref a r]
        out := some (.read r) }) ∧
    (s.eng.bound = false ∨ s.eng.addr ≠ a → exec (.read4 a) s = .refused .notOwnDevice)

/-- R143 on a presented frame: status 00 goes to Ready, 01, 10 and 11 go to NotReady; nothing else changes but that
the registers hold the frame; and the status check of a cycle is the classification of the frame the registers hold.
That a frame row can be run by itself, and loads the frame, is the model's choice (log 8). -/
def Obligations.FrameClassGate : Prop :=
  (∀ (f : Frame) (s : State), s.eng.run = true → s.eng.state = .reading →
    (f.b0.extractLsb' 6 2 = 0b00#2 →
      exec (.frameValid f) s = .next { s with eng := { s.eng with frame := some f, state := .ready } }) ∧
    (f.b0.extractLsb' 6 2 = 0b01#2 →
      exec (.frameNotready01 f) s = .next { s with eng := { s.eng with frame := some f, state := .notReady } }) ∧
    (f.b0.extractLsb' 6 2 = 0b10#2 →
      exec (.frameNotready10 f) s = .next { s with eng := { s.eng with frame := some f, state := .notReady } }) ∧
    (f.b0.extractLsb' 6 2 = 0b11#2 →
      exec (.frameNotready11 f) s = .next { s with eng := { s.eng with frame := some f, state := .notReady } })) ∧
  (∀ (s : State) (f : Frame), s.eng.frame = some f → exec .sChk s = exec (decodeFrame f) s)

/-- Where the frame registers hold no value (no cycle reaches that), S_CHK and S_DEC run all the same, on a free frame
that the registers hold from then on: the model's choice (log 4). -/
def Obligations.FreeFrameSteps : Prop :=
  ∀ s : State, s.eng.run = true → s.eng.frame = none →
    (s.eng.state = .reading → ∃ f t, exec .sChk s = .next t ∧
      exec .sChk { s with draws := t.draws, eng := { s.eng with frame := some f } } = .next t) ∧
    (s.eng.state = .ready → ∃ f t, exec .sDec s = .next t ∧
      exec .sDec { s with draws := t.draws, eng := { s.eng with frame := some f } } = .next t)

/-! ### Sequencer steps -/

/-- R141: S_TRIG issues one trigger to ADDR on BUSREF; Ok goes to Triggered, Err(e) is TransportError(e) at once,
with no read; the whole next state but the model's count of free values. The answer is the next one scripted for a
trigger where one is left: scripts kept by kind are the model's form of the oracle (log 3). -/
def Obligations.TriggerStep : Prop :=
  ∀ s : State, s.eng.run = true → s.eng.state = .idle → ∃ (r : TrigAnswer) (d : Nat),
    (∀ x rest, s.trigScript = x :: rest → r = x) ∧
    exec .sTrig s = .next { s with
      trigScript := s.trigScript.tail
      draws := d
      history := s.history ++ [.trig s.inst s.eng.busref s.eng.addr r]
      eng := match r with
        | .ok => { s.eng with state := .triggered }
        | .err c => { s.eng with
            buserr := c, errkind := .transportError, state := .failedTransport, hum := none, temp := none,
            val := if s.eng.op = .acq then s.eng.val else some 0x00000000#32,
            err := true, run := false, done := true } }

/-- R142: S_READ issues one read; Ok writes all four frame bytes and goes to Reading, Err(e) is TransportError(e) and
writes no frame byte; no delay; the whole next state but the model's count of free values. The answer is the next one
scripted for a read where one is left: scripts kept by kind are the model's form of the oracle (log 3). -/
def Obligations.ReadStep : Prop :=
  ∀ s : State, s.eng.run = true → s.eng.state = .triggered → ∃ (r : ReadAnswer) (d : Nat),
    (∀ x rest, s.readScript = x :: rest → r = x) ∧
    exec .sRead s = .next { s with
      readScript := s.readScript.tail
      draws := d
      history := s.history ++ [.read s.inst s.eng.busref s.eng.addr r]
      eng := match r with
        | .ok f => { s.eng with frame := some f, state := .reading }
        | .err c => { s.eng with
            buserr := c, errkind := .transportError, state := .failedTransport, hum := none, temp := none,
            val := if s.eng.op = .acq then s.eng.val else some 0x00000000#32,
            err := true, run := false, done := true } }

/-- R143: S_CHK inspects bits 7:6 of F[0] alone, cannot fail, asks the transport nothing and writes STATE; the whole
next state. -/
def Obligations.CheckStep : Prop :=
  ∀ (s : State) (f : Frame), s.eng.run = true → s.eng.state = .reading → s.eng.frame = some f →
    exec .sChk s = .next { s with eng := { s.eng with
      state := if f.b0.extractLsb' 6 2 = 0b00#2 then .ready else .notReady } }

/-- R144: S_RETRY waits 100 ms, then counts, then reads; the trigger is not repeated; the whole next state but the model's count of free values. The answer is the next one scripted for a
read where one is left: scripts kept by kind are the model's form of the oracle (log 3). -/
def Obligations.RetryStep : Prop :=
  ∀ s : State, s.eng.run = true → s.eng.state = .notReady →
    (s.eng.retryLimit = 0xFFFF#16 ∨ s.eng.retryCnt.toNat < s.eng.retryLimit.toNat) → ∃ (r : ReadAnswer) (d : Nat),
    (∀ x rest, s.readScript = x :: rest → r = x) ∧
    exec .sRetry s = .next { s with
      readScript := s.readScript.tail
      draws := d
      history := s.history ++ [.delay s.inst 100, .read s.inst s.eng.busref s.eng.addr r]
      eng := match r with
        | .ok f => { s.eng with
            retryCnt := BitVec.ofNat 16 (min (s.eng.retryCnt.toNat + 1) 0xFFFF)
            frame := some f, state := .reading }
        | .err c => { s.eng with
            retryCnt := BitVec.ofNat 16 (min (s.eng.retryCnt.toNat + 1) 0xFFFF)
            buserr := c, errkind := .transportError, state := .failedTransport, hum := none, temp := none,
            val := if s.eng.op = .acq then s.eng.val else some 0x00000000#32,
            err := true, run := false, done := true } }

/-- R145: S_TIMEOUT ends the cycle in NotReadyTimeout exactly where the bound is reached, with no delay and no bus
transaction, the last frame kept; with RETRY_LIMIT = 0xFFFF it is never enabled; the whole next state. -/
def Obligations.TimeoutStep : Prop :=
  ∀ s : State, s.eng.run = true → s.eng.state = .notReady →
    (s.eng.retryLimit ≠ 0xFFFF#16 → s.eng.retryLimit.toNat ≤ s.eng.retryCnt.toNat →
      exec .sTimeout s = .next { s with eng := { s.eng with
        errkind := .notReadyTimeout, state := .failedTimeout, hum := none, temp := none,
        val := if s.eng.op = .acq then s.eng.val else some 0x00000000#32,
        err := true, run := false, done := true } }) ∧
    (s.eng.retryLimit = 0xFFFF#16 → ∀ t, exec .sTimeout s ≠ .next t)

/-- R147, R150: S_DEC writes both codes and both results together, sets VALID, and completes: VAL receives TEMP after
RDT, HUM after RDH, and stays as it is after ACQ; the whole next state. That F goes on holding the frame after the
cycle, which R29 and U8 leave unspecified, is the model's choice (log 22). -/
def Obligations.DecodeStep : Prop :=
  ∀ (s : State) (f : Frame), s.eng.run = true → s.eng.state = .ready → s.eng.frame = some f →
    exec .sDec s = .next { s with eng := { s.eng with
      hc := some (f.b0.extractLsb' 0 6 ++ f.b1)
      tc := some (f.b2 ++ f.b3.extractLsb' 2 6)
      hum := some (scaleH s.cfg.fpEval (f.b0.extractLsb' 0 6 ++ f.b1))
      temp := some (scaleT s.cfg.fpEval (f.b2 ++ f.b3.extractLsb' 2 6))
      valid := true
      state := .decoded
      val := match s.eng.op with
        | .acq => s.eng.val
        | .rdt => some (scaleT s.cfg.fpEval (f.b2 ++ f.b3.extractLsb' 2 6))
        | .rdh => some (scaleH s.cfg.fpEval (f.b0.extractLsb' 0 6 ++ f.b1))
      run := false
      done := true } }

/-- R140: the steps, and R143: the frame classes: outside its state, with RUN = 0, or (in NotReady) on the other side of LimitReached, a sequencer step does
not exist, nor, outside Reading, the check of a frame. That the model answers there with a refusal is its own form of
"no step" (log 6, log 8). -/
def Obligations.StepsExistOnlyInTheirState : Prop :=
  ∀ s : State,
    (s.eng.run = false ∨ s.eng.state ≠ .idle → exec .sTrig s = .refused .stepNotEnabled) ∧
    (s.eng.run = false ∨ s.eng.state ≠ .triggered → exec .sRead s = .refused .stepNotEnabled) ∧
    (s.eng.run = false ∨ s.eng.state ≠ .reading → exec .sChk s = .refused .stepNotEnabled) ∧
    (s.eng.run = false ∨ s.eng.state ≠ .notReady ∨
      (s.eng.retryLimit ≠ 0xFFFF#16 ∧ s.eng.retryLimit.toNat ≤ s.eng.retryCnt.toNat) →
      exec .sRetry s = .refused .stepNotEnabled) ∧
    (s.eng.run = false ∨ s.eng.state ≠ .notReady ∨
      s.eng.retryLimit = 0xFFFF#16 ∨ s.eng.retryCnt.toNat < s.eng.retryLimit.toNat →
      exec .sTimeout s = .refused .stepNotEnabled) ∧
    (s.eng.run = false ∨ s.eng.state ≠ .ready → exec .sDec s = .refused .stepNotEnabled) ∧
    (s.eng.run = false ∨ s.eng.state ≠ .reading → ∀ f : Frame,
      exec (.frameValid f) s = .refused .stepNotEnabled ∧ exec (.frameNotready01 f) s = .refused .stepNotEnabled ∧
      exec (.frameNotready10 f) s = .refused .stepNotEnabled ∧ exec (.frameNotready11 f) s = .refused .stepNotEnabled)

/-! ### Parser and scaler -/

/-- R172: F_STATUS(b0) = b0[7:6], by its corner cases; no register changes. -/
def Obligations.StatusField : Prop :=
  ∀ (b0 : Byte) (s : State), exec (.fStatus b0) s = .next { s with out := some (.status (b0.extractLsb' 6 2)) } ∧
    (b0.extractLsb' 6 2).toNat = b0.toNat / 64

/-- R173: both forms of F_HCODE, evaluated at 16 bits, and no bit is lost; no register changes. -/
def Obligations.HumidityCode : Prop :=
  ∀ (b0 b1 : Byte) (s : State), ∃ c : Code,
    exec (.fHcode b0 b1) s = .next { s with out := some (.code c) } ∧
    c = b0.extractLsb' 0 6 ++ b1 ∧
    c.setWidth 16 = ((b0.setWidth 16 &&& 0x003F#16) <<< 8) ||| b1.setWidth 16 ∧
    c.toNat = (b0.toNat % 64) * 256 + b1.toNat

/-- R174: both forms of F_TCODE, evaluated at 16 bits, and the shift is exact; no register changes. -/
def Obligations.TemperatureCode : Prop :=
  ∀ (b2 b3 : Byte) (s : State), ∃ c : Code,
    exec (.fTcode b2 b3) s = .next { s with out := some (.code c) } ∧
    c = b2 ++ b3.extractLsb' 2 6 ∧
    c.setWidth 16 = ((b2.setWidth 16 <<< 8) ||| (b3.setWidth 16 &&& 0x00FC#16)) >>> 2 ∧
    c.toNat = b2.toNat * 64 + b3.toNat / 4

/-- R178: F_DECODE is the pair of the two scaled codes, total, both always computed; it ignores b0[7:6] and b3[1:0]. -/
def Obligations.WholeDecode : Prop :=
  ∀ (b0 b1 b2 b3 : Byte) (s : State),
    exec (.fDecode b0 b1 b2 b3) s = .next { s with out := some (.reading
      (scaleH s.cfg.fpEval (b0.extractLsb' 0 6 ++ b1)) (scaleT s.cfg.fpEval (b2 ++ b3.extractLsb' 2 6))) } ∧
    ∀ c0 c3 : Byte, c0.extractLsb' 0 6 = b0.extractLsb' 0 6 → c3.extractLsb' 2 6 = b3.extractLsb' 2 6 →
      exec (.fDecode c0 b1 b2 c3) s = exec (.fDecode b0 b1 b2 b3) s

/-- R177: F_SCALEH completes on every code under either FP_EVAL, and delivers the binary32 nearest hc * 100 / 16383,
ties to even; no register changes. -/
def Obligations.HumidityNearest : Prop :=
  ∀ (hc : Code) (s : State),
    exec (.fScaleh hc) s = .next { s with out := some (.b32 (scaleH s.cfg.fpEval hc)) } ∧
    isNearest (scaleH s.cfg.fpEval hc) (humidityOf hc)

/-- R179 with R176: under EXACT_RN F_SCALET delivers the binary32 nearest tc * 165 / 16383 - 40, ties to even; under
either FP_EVAL it completes on every code, delivers the scaled value, of which TemperatureChainRoundsTwice and
TemperatureErrorBounds speak under B32_CHAIN, and no register changes. -/
def Obligations.TemperatureNearest : Prop :=
  ∀ (tc : Code) (s : State),
    exec (.fScalet tc) s = .next { s with out := some (.b32 (scaleT s.cfg.fpEval tc)) } ∧
    (s.cfg.fpEval = .exactRn → isNearest (scaleT s.cfg.fpEval tc) (temperatureOf tc))

/-- R180: under B32_CHAIN the humidity equals that of EXACT_RN for every code. -/
def Obligations.HumidityIndependentOfEval : Prop :=
  ∀ hc : Code, scaleH .b32Chain hc = scaleH .exactRn hc

/-- R180: B32_CHAIN rounds twice, the quotient and then the difference: each the binary32 nearest the exact value of
its operation on the value before it. -/
def Obligations.TemperatureChainRoundsTwice : Prop :=
  ∀ tc : Code, ∃ q : B32, isNearest q ((tc.toNat : ℚ) * 165 / 16383) ∧
    isNearest (scaleT .b32Chain tc) (b32Value q - 40)

/-- R180: the absolute error of the two evaluations of the temperature. -/
def Obligations.TemperatureErrorBounds : Prop :=
  ∀ tc : Code,
    |b32Value (scaleT .exactRn tc) - temperatureOf tc| ≤ 382 / 100000000 ∧
    |b32Value (scaleT .b32Chain tc) - temperatureOf tc| ≤ 763 / 100000000

/-- R177, R179: which codes have an exact result. -/
def Obligations.ExactCodes : Prop :=
  (∀ hc : Code, b32Value (scaleH .exactRn hc) = humidityOf hc ↔ hc.toNat = 0 ∨ hc.toNat = 16383) ∧
  (∀ tc : Code, b32Value (scaleT .exactRn tc) = temperatureOf tc ↔
    tc.toNat = 0 ∨ tc.toNat = 5461 ∨ tc.toNat = 10922 ∨ tc.toNat = 16383)

/-- R183: both scalings are strictly increasing in their codes, under both values of FP_EVAL. -/
def Obligations.StrictlyMonotone : Prop :=
  ∀ (ev : FpEval) (c d : Code), c.toNat < d.toNat →
    b32Value (scaleH ev c) < b32Value (scaleH ev d) ∧ b32Value (scaleT ev c) < b32Value (scaleT ev d)

/-- R182: the ranges, with equality exactly at the extreme codes, under both values of FP_EVAL. -/
def Obligations.ResultRanges : Prop :=
  ∀ (ev : FpEval) (c : Code),
    0 ≤ b32Value (scaleH ev c) ∧ b32Value (scaleH ev c) ≤ 100 ∧
    -40 ≤ b32Value (scaleT ev c) ∧ b32Value (scaleT ev c) ≤ 125 ∧
    (b32Value (scaleH ev c) = 0 ↔ c.toNat = 0) ∧ (b32Value (scaleH ev c) = 100 ↔ c.toNat = 16383) ∧
    (b32Value (scaleT ev c) = -40 ↔ c.toNat = 0) ∧ (b32Value (scaleT ev c) = 125 ↔ c.toNat = 16383)

/-- R181: no result is a NaN, an infinity, a subnormal number or a negative zero; the only zero is F_SCALEH(0) = +0.0. -/
def Obligations.NoSpecialValues : Prop :=
  ∀ (ev : FpEval) (c : Code),
    (c.toNat = 0 → scaleH ev c = 0x00000000#32) ∧
    (c.toNat ≠ 0 → 0 < b32Exp (scaleH ev c) ∧ b32Exp (scaleH ev c) < 255) ∧
    0 < b32Exp (scaleT ev c) ∧ b32Exp (scaleT ev c) < 255

/-- R105 (general knowledge, as the spec marks it, log 15): the value of a normal binary32 pattern. -/
def Obligations.Binary32Value : Prop :=
  ∀ x : B32, 0 < b32Exp x → b32Exp x < 255 →
    b32Value x = (if x.getLsbD 31 then -1 else 1) * (2 : ℚ) ^ ((b32Exp x : ℤ) - 127) * (1 + (b32Frac x : ℚ) / 2 ^ 23)

/-! ### Host register accesses -/

/-- R38, R99, R100: every field of STATUS, the reserved ones 0; a read has no side effect and may be made at any
time. -/
def Obligations.StatusRead : Prop :=
  ∀ s : State, ∃ w : Word, hostAccess (.read 0x04 .word) s = .next { s with out := some (.hostWord w) } ∧
    w.getLsbD 0 = s.eng.run ∧ w.getLsbD 1 = s.eng.done ∧ w.getLsbD 2 = s.eng.err ∧ w.getLsbD 3 = s.eng.valid ∧
    w.getLsbD 4 = s.eng.bound ∧ w.extractLsb' 5 3 = 0#3 ∧ w.extractLsb' 8 4 = stateCode s.eng.state ∧
    w.extractLsb' 12 3 = errKindCode s.eng.errkind ∧ w.getLsbD 15 = false ∧
    w.extractLsb' 16 8 = s.eng.buserr ∧ w.extractLsb' 24 2 = opCode s.eng.op ∧ w.extractLsb' 26 6 = 0#6

/-- R99, R100: the numbers of the names that STATUS shows; the other numbers are never produced; INIT and refused
commands do not write OP. -/
def Obligations.NameNumbers : Prop :=
  (errKindCode .none = 0#3 ∧ errKindCode .transportError = 1#3 ∧ errKindCode .notReadyTimeout = 2#3 ∧
    errKindCode .initError = 3#3 ∧ errKindCode .cmdRefused = 4#3) ∧
  (opCode .acq = 0#2 ∧ opCode .rdt = 1#2 ∧ opCode .rdh = 2#2) ∧
  (∀ k : ErrKind, (errKindCode k).toNat ≤ 4) ∧ (∀ o : Op, (opCode o).toNat ≤ 2) ∧
  (∀ (bus : BusSel) (addr : BusAddr) (s t : State), exec (.init bus addr) s = .next t → t.eng.op = s.eng.op) ∧
  (∀ (i : Instr) (s t : State), isCmdRow i = true → exec i s = .next t → t.eng.errkind = .cmdRefused →
    t.eng.op = s.eng.op)

/-- R37, R39: the other registers that always read; a read changes no register. -/
def Obligations.PlainReads : Prop :=
  ∀ s : State,
    hostAccess (.read 0x00 .word) s = .next { s with out := some (.hostWord 0#32) } ∧
    (∃ w : Word, hostAccess (.read 0x08 .word) s = .next { s with out := some (.hostWord w) } ∧
      w.extractLsb' 0 7 = s.eng.addr ∧ w.getLsbD 7 = false ∧ w.extractLsb' 8 8 = s.eng.busref ∧
      w.extractLsb' 16 16 = 0#16) ∧
    hostAccess (.read 0x0C .word) s = .next { s with out := some (.hostWord (s.eng.retryLimit.setWidth 32)) } ∧
    hostAccess (.read 0x10 .word) s = .next { s with out := some (.hostWord (s.eng.retryCnt.setWidth 32)) }

/-- R41: the offsets 0x20 and above: reads return 0, writes are ignored, neither has a side effect. That the window has
no upper end, so that every aligned offset from 0x20 up is such an offset, is the model's choice (log 20). -/
def Obligations.ReservedOffsets : Prop :=
  ∀ (off : Nat) (v : Word) (s : State), 0x20 ≤ off → off % 4 = 0 →
    hostAccess (.read off .word) s = .next { s with out := some (.hostWord 0#32) } ∧
    hostAccess (.write off .word v) s = .next s

/-- R33, R127: a read of HUM, TEMP or VAL returns the register's value where it holds one. Where it holds no_value the
read returns some word, of which nothing is said (a free value: the model's form of U7's "any value", log 5). No
register and no event changes in either case. -/
def Obligations.ResultReads : Prop :=
  ∀ (off : Nat) (s : State) (r : Option B32),
    (off = 0x14 ∧ r = s.eng.hum) ∨ (off = 0x18 ∧ r = s.eng.temp) ∨ (off = 0x1C ∧ r = s.eng.val) →
    (∀ v, r = some v → hostAccess (.read off .word) s = .next { s with out := some (.hostWord v) }) ∧
    (r = none → ∃ (v : Word) (d : Nat),
      hostAccess (.read off .word) s = .next { s with draws := d, out := some (.hostWord v) })

/-- R128: a write of RETRY_LIMIT takes bits 15:0 while RUN = 0 and is ignored while RUN = 1; it clears nothing; a
write to every other register of the map (offsets 0x04 to 0x1C) except CMD is ignored. -/
def Obligations.RegisterWrites : Prop :=
  ∀ (v : Word) (s : State),
    (s.eng.run = false → hostAccess (.write 0x0C .word v) s =
      .next { s with eng := { s.eng with retryLimit := v.extractLsb' 0 16 } }) ∧
    (s.eng.run = true → hostAccess (.write 0x0C .word v) s = .next s) ∧
    ∀ off : Nat, off % 4 = 0 → off < 0x20 → off ≠ 0x00 → off ≠ 0x0C → hostAccess (.write off .word v) s = .next s

/-- R67: a byte or half-word access, and one at an offset that is no multiple of 4, is refused. -/
def Obligations.NarrowAccessRefused : Prop :=
  ∀ (off : Nat) (size : AccessSize) (v : Word) (s : State), size ≠ .word ∨ off % 4 ≠ 0 →
    hostAccess (.read off size) s = .refused .notAlignedWord ∧
    hostAccess (.write off size v) s = .refused .notAlignedWord

/-! ### The step -/

/-- R40, R140, R20: the step runs what is decoded, on the registers of the instance the turn is about. An existing
instance comes into focus with its own registers, every instance keeping its registers and the rest of the state
unchanged; there a command word written to CMD, a word on a port, and, on the sequencer's turn, the step that STATE and
LimitReached select are run by `exec`. Where no turn is left it is the sequencer's turn of the instance that has waited
longest, which always exists. A turn for an instance that does not exist is a fault. Turns, focus and ports are the model's form of the agents and of
N_INSTANCES (log 1, log 2, log 7, log 20). -/
def Obligations.StepRunsDecoded : Prop :=
  (∀ (s : State) (k : Nat) (ts : List Turn) (e : Engine), engineOf s k = some e →
    ∃ u, focus k { s with turns := ts } = some u ∧ u.inst = k ∧ u.eng = e ∧
      (∀ j, engineOf u j = engineOf s j) ∧ (k = s.inst → u = { s with turns := ts }) ∧
      u.cfg = s.cfg ∧ u.turns = ts ∧ u.trigScript = s.trigScript ∧ u.readScript = s.readScript ∧
      u.draws = s.draws ∧ u.history = s.history ∧ u.out = s.out) ∧
  (∀ (s u : State) (k : Nat) (w : Word) (ts : List Turn) (i : Instr),
    s.turns = .host k (.write 0x00 .word w) :: ts → focus k { s with turns := ts } = some u →
    decode .cmd w = .ok i → step s = exec i u) ∧
  (∀ (s u : State) (k : Nat) (p : Port) (w : Word) (ts : List Turn) (i : Instr),
    s.turns = .port k p w :: ts → focus k { s with turns := ts } = some u →
    decode p w = .ok i → step s = exec i u) ∧
  (∀ (s u : State) (k : Nat) (ts : List Turn) (i : Instr),
    s.turns = .sequencer k :: ts → focus k { s with turns := ts } = some u → u.eng.run = true →
    decode (.seq (limitReached u.eng)) ((stateCode u.eng.state).setWidth 32) = .ok i → step s = exec i u) ∧
  (∀ (s u : State) (i : Instr), s.turns = [] → focus (longestWaiting s) s = some u → u.eng.run = true →
    decode (.seq (limitReached u.eng)) ((stateCode u.eng.state).setWidth 32) = .ok i → step s = exec i u) ∧
  (∀ s : State, (∃ e, engineOf s (longestWaiting s) = some e) ∧ (s.parked = [] → longestWaiting s = s.inst)) ∧
  (∀ (s : State) (t : Turn) (ts : List Turn), s.turns = t :: ts → engineOf s t.target = none →
    step s = .fault .noSuchInstance)

/-- R37, R127, R20: on the host's turn, an access that is not a word write of CMD is the register access, on the
registers of the instance the turn is about, in focus or parked (turns and focus: log 1, log 2). -/
def Obligations.StepRunsHostAccess : Prop :=
  ∀ (s u : State) (k : Nat) (a : HostAccess) (ts : List Turn),
    s.turns = .host k a :: ts → focus k { s with turns := ts } = some u →
    (∀ w, a ≠ .write 0x00 .word w) → step s = hostAccess a u

/-- R140: with RUN = 0 the sequencer of an instance, in focus or parked, has no step and nothing changes (turns and
focus: log 1, log 2). -/
def Obligations.IdleSequencerChangesNothing : Prop :=
  (∀ s u : State, s.turns = [] → focus (longestWaiting s) s = some u → u.eng.run = false → step s = .next u) ∧
  (∀ (s u : State) (k : Nat) (ts : List Turn), s.turns = .sequencer k :: ts →
    focus k { s with turns := ts } = some u → u.eng.run = false → step s = .next u)

/-- R240, R241, R242: reset puts every register of the instance the turn is about, in focus or parked, at its value of
R45, also in the middle of a cycle, and causes no bus event; the history keeps what had completed, which, where the
reset falls into the read of S_RETRY, is the delay before it. Turns, focus, the moment of a reset, and that the read cut
short takes no scripted answer, are the model's form (log 1, log 2, log 13). -/
def Obligations.ResetTurn : Prop :=
  ∀ (s u : State) (k : Nat) (m : ResetMoment) (ts : List Turn),
    s.turns = .reset k m :: ts → focus k { s with turns := ts } = some u →
    step s = .next { u with
      history :=
        if m = .inRetryRead ∧ u.eng.run = true ∧ u.eng.state = .notReady ∧
            (u.eng.retryLimit = 0xFFFF#16 ∨ u.eng.retryCnt.toNat < u.eng.retryLimit.toNat) then
          u.history ++ [.delay k 100] else u.history
      eng := {
        bound := false, busref := 0#8, addr := 0x44#7, state := .idle, run := false, op := .acq,
        retryCnt := 0#16, retryLimit := 10#16, frame := none, hc := none, tc := none,
        hum := none, temp := none, val := none, done := false, err := false, valid := false,
        errkind := .none, buserr := 0#8 } }

/-- R45: the registers after reset. -/
def Obligations.ResetValues : Prop :=
  State.reset.eng = {
    bound := false, busref := 0#8, addr := 0x44#7, state := .idle, run := false, op := .acq,
    retryCnt := 0#16, retryLimit := 10#16, frame := none, hc := none, tc := none,
    hum := none, temp := none, val := none, done := false, err := false, valid := false,
    errkind := .none, buserr := 0#8 }

/-! ### Invariants and whole-machine rules -/

/-- R46 (a) to (g), with what a step needs beside them, holds at reset. -/
def Obligations.ResetMeetsInv : Prop := Inv State.reset

/-- R46 (a) to (g): every step keeps the invariant, from every state that has it. -/
def Obligations.StepKeepsInv : Prop :=
  ∀ s t : State, Inv s → step s = .next t → Inv t

/-- R46 (h), R23: while bound, BOUND, BUSREF and ADDR of an instance change by nothing but its reset. -/
def Obligations.HandleFixedWhileBound : Prop :=
  ∀ (s t : State) (k : Nat) (e : Engine), step s = .next t → engineOf s k = some e → e.bound = true →
    (∀ m ts, s.turns ≠ .reset k m :: ts) →
    ∃ e', engineOf t k = some e' ∧ e'.bound = true ∧ e'.busref = e.busref ∧ e'.addr = e.addr

/-- R20: instances share nothing: a step moves one instance, and every other keeps all its registers. R16 (fairness):
with no turn left the instances move in turn, the first of the waiting order next and then last, so that each moves
again after all the others. That order is the model's choice (log 1). R15: no step changes a parameter. -/
def Obligations.InstancesShareNothing : Prop :=
  (∀ (s t : State) (k : Nat), step s = .next t → k ≠ mover s → engineOf t k = engineOf s k) ∧
  (∀ s t : State, step s = .next t → s.turns = [] → (s.inst :: s.parked.map Prod.fst).Nodup →
    (waitingOrder s).head? = some (mover s) ∧ waitingOrder t = (waitingOrder s).rotate 1 ∧ t.turns = []) ∧
  (∀ s t : State, step s = .next t → t.cfg = s.cfg)

/-- R127: DONE is cleared by nothing but the next accepted command (or reset). -/
def Obligations.DoneClearedOnlyByCommand : Prop :=
  ∀ (s t : State) (k : Nat) (e e' : Engine), step s = .next t →
    engineOf s k = some e → engineOf t k = some e' → e.done = true → e'.done = false →
    ∃ ts, (∃ m, s.turns = .reset k m :: ts) ∨ (e.run = false ∧ ∃ w,
      s.turns = .host k (.write 0x00 .word w) :: ts ∨ s.turns = .port k .cmd w :: ts)

/-- R155, R121, R128: no host access, to whichever instance, changes a register of an instance whose cycle runs, nor
causes a bus event. That a command while busy is ignored is a choice of the spec that errs slightly toward proving, and
R218 (c) recommends the premise that the host writes CMD only when BUSY = 0; this statement does without it
(log 19). -/
def Obligations.HostCannotDisturbCycle : Prop :=
  ∀ (s t : State) (j k : Nat) (a : HostAccess) (ts : List Turn) (e : Engine), s.turns = .host j a :: ts →
    engineOf s k = some e → e.run = true → step s = .next t →
    engineOf t k = some e ∧ t.history = s.history

/-- R156: given the same registers, parameters, turns and oracle answers, a step gives the same registers, parameters,
turns and answers left: nothing in the engine draws a value. -/
def Obligations.StepDependsOnOracleOnly : Prop :=
  ∀ s s' t : State, Inv s → agree s s' → s.trigScript ≠ [] → s.readScript ≠ [] → step s = .next t →
    ∃ t', step s' = .next t' ∧ agree t t'

/-- R151, R152: a transport that returns not-ready N times and then a valid frame: exactly N + 1 reads, one trigger
and N delays, in order, RETRY_CNT = N (saturated), and the valid frame decoded. -/
def Obligations.NotReadyThenValidCycle : Prop :=
  ∀ (s : State) (bad : List Frame) (good : Frame) (tr : List TrigAnswer) (rr : List ReadAnswer),
    alone (2 * bad.length + 4) s → s.eng.run = true → s.eng.state = .idle → s.eng.retryCnt = 0#16 →
    s.trigScript = .ok :: tr → s.readScript = bad.map .ok ++ .ok good :: rr →
    (∀ f ∈ bad, frameStatus f ≠ 0b00#2) → frameStatus good = 0b00#2 →
    (s.eng.retryLimit = 0xFFFF#16 ∨ bad.length ≤ s.eng.retryLimit.toNat) →
    ∃ t, Host.Core.run core (2 * bad.length + 4) s = .next t ∧
      t.history = s.history ++ .trig s.inst s.eng.busref s.eng.addr .ok ::
        readEvents s.inst s.eng.busref s.eng.addr bad good ∧
      t.trigScript = tr ∧ t.readScript = rr ∧
      t.eng.state = .decoded ∧ t.eng.run = false ∧ t.eng.done = true ∧ t.eng.valid = true ∧
      t.eng.err = s.eng.err ∧ t.eng.errkind = s.eng.errkind ∧
      t.eng.retryCnt.toNat = min bad.length 0xFFFF ∧
      t.eng.hum = some (scaleH s.cfg.fpEval (parseHcode good.b0 good.b1)) ∧
      t.eng.temp = some (scaleT s.cfg.fpEval (parseTcode good.b2 good.b3)) ∧
      t.eng.val = (match s.eng.op with
        | .acq => s.eng.val
        | .rdt => t.eng.temp
        | .rdh => t.eng.hum)

/-- R151, R152, R148: a device that is never ready within the bound L: L + 1 reads, L delays, one trigger, then
NotReadyTimeout, and no reading. -/
def Obligations.NeverReadyCycle : Prop :=
  ∀ (s : State) (bad : List Frame) (last : Frame) (tr : List TrigAnswer) (rr : List ReadAnswer),
    alone (2 * bad.length + 4) s → s.eng.run = true → s.eng.state = .idle → s.eng.retryCnt = 0#16 →
    s.trigScript = .ok :: tr → s.readScript = bad.map .ok ++ .ok last :: rr →
    (∀ f ∈ bad, frameStatus f ≠ 0b00#2) → frameStatus last ≠ 0b00#2 →
    s.eng.retryLimit ≠ 0xFFFF#16 → bad.length = s.eng.retryLimit.toNat →
    ∃ t, Host.Core.run core (2 * bad.length + 4) s = .next t ∧
      t.history = s.history ++ .trig s.inst s.eng.busref s.eng.addr .ok ::
        readEvents s.inst s.eng.busref s.eng.addr bad last ∧
      t.trigScript = tr ∧ t.readScript = rr ∧
      t.eng.state = .failedTimeout ∧ t.eng.run = false ∧ t.eng.done = true ∧ t.eng.err = true ∧
      t.eng.errkind = .notReadyTimeout ∧ t.eng.retryCnt = s.eng.retryLimit ∧
      t.eng.hum = none ∧ t.eng.temp = none ∧
      t.eng.val = (if s.eng.op = .acq then s.eng.val else some 0x00000000#32)

/-- R153: with a finite limit every cycle ends, whatever the oracle answers, given that every transaction answers (R64,
log 12): after at most 2 * RETRY_LIMIT + 4 steps,
with at most RETRY_LIMIT + 1 reads and one trigger. -/
def Obligations.BoundedCycleEnds : Prop :=
  ∀ (s : State) (n : Nat), alone n s → EngineInv s.eng → s.eng.run = true → s.eng.state = .idle →
    s.eng.retryLimit ≠ 0xFFFF#16 → 2 * s.eng.retryLimit.toNat + 4 ≤ n →
    ∃ t evs, Host.Core.run core n s = .next t ∧ t.eng.run = false ∧ t.eng.done = true ∧
      t.history = s.history ++ evs ∧ evs.countP BusEvent.isTrig = 1 ∧
      evs.countP BusEvent.isRead ≤ s.eng.retryLimit.toNat + 1

/-- R153: with RETRY_LIMIT = 0xFFFF the loop has no exit of its own: as long as the device answers not-ready frames
the cycle runs on, however many they are. -/
def Obligations.UnboundedCycleRunsOn : Prop :=
  ∀ (s : State) (bad : List Frame) (tr : List TrigAnswer) (rr : List ReadAnswer) (n : Nat),
    alone n s → s.eng.run = true → s.eng.state = .idle → s.eng.retryLimit = 0xFFFF#16 →
    s.trigScript = .ok :: tr → s.readScript = bad.map .ok ++ rr →
    (∀ f ∈ bad, frameStatus f ≠ 0b00#2) → n ≤ 2 * bad.length + 1 →
    ∃ t, Host.Core.run core n s = .next t ∧ t.eng.run = true ∧ t.eng.done = s.eng.done

/-- R74: the history of a cycle always has the shape: one Trig; then, if it succeeded, one Read; then pairs Delay,
Read, each pair only after a not-ready frame; at every moment of the cycle and after it, whatever the oracle
answers. -/
def Obligations.CycleHistoryShape : Prop :=
  ∀ (s t : State) (n : Nat), alone n s → s.eng.run = true → s.eng.state = .idle →
    Host.Core.run core n s = .next t →
    ∃ evs, t.history = s.history ++ evs ∧ cycleShape s.inst s.eng.busref s.eng.addr evs = true
end

