-- ==== Sys2Proof/Laws/Binary32.lean ====
section
/-! SUPPORT. What the parts of RN32 are: the nearest integer to a quotient, the exponent of a quotient, and the nearest
multiple of a power of two (42_decoder_scaler.md R176). -/

namespace Sys2Proof.Machine
open Sys2Proof

/-- The rounded quotient is within half of the exact one, and even where it is exactly half away. -/
theorem roundQuot_spec {n d : Nat} (hd : 0 < d) :
    2 * n ≤ 2 * (d * roundQuot n d) + d ∧ 2 * (d * roundQuot n d) ≤ 2 * n + d ∧
      (2 * n = 2 * (d * roundQuot n d) + d ∨ 2 * (d * roundQuot n d) = 2 * n + d → roundQuot n d % 2 = 0) := by
  have h := Nat.div_add_mod n d
  have hr := Nat.mod_lt n hd
  have h1 : d * (n / d + 1) = d * (n / d) + d := by ring
  unfold roundQuot
  split
  · omega
  · split
    · rw [h1]; omega
    · rcases Nat.mod_two_eq_zero_or_one (n / d) with hq | hq <;> rw [hq]
      · simp only [Nat.add_zero]; omega
      · rw [h1]; omega

/-- The comparison in integers is the comparison in ℚ. -/
theorem quotBelowPow2_iff {n d : Nat} (hd : 0 < d) (e : Int) :
    quotBelowPow2 n d e = true ↔ (n : ℚ) / d < (2 : ℚ) ^ e := by
  have hd' : (0 : ℚ) < d := by exact_mod_cast hd
  cases e with
  | ofNat k =>
    simp only [quotBelowPow2, decide_eq_true_eq, Int.ofNat_eq_natCast, zpow_natCast]
    rw [div_lt_iff₀ hd', mul_comm]
    exact_mod_cast Iff.rfl
  | negSucc k =>
    simp only [quotBelowPow2, decide_eq_true_eq, zpow_negSucc]
    rw [div_lt_iff₀ hd', inv_mul_eq_div, lt_div_iff₀ (by positivity)]
    exact_mod_cast Iff.rfl

/-- The exponent of a positive quotient. -/
theorem floorLog2_spec {n d : Nat} (hn : 0 < n) (hd : 0 < d) :
    (2 : ℚ) ^ floorLog2 n d ≤ (n : ℚ) / d ∧ (n : ℚ) / d < (2 : ℚ) ^ (floorLog2 n d + 1) := by
  have hd' : (0 : ℚ) < d := by exact_mod_cast hd
  have n1 : (2 : ℚ) ^ n.log2 ≤ n := by exact_mod_cast Nat.log2_self_le (by omega)
  have n2 : (n : ℚ) < 2 ^ (n.log2 + 1) := by exact_mod_cast Nat.lt_log2_self
  have d1 : (2 : ℚ) ^ d.log2 ≤ d := by exact_mod_cast Nat.log2_self_le (by omega)
  have d2 : (d : ℚ) < 2 ^ (d.log2 + 1) := by exact_mod_cast Nat.lt_log2_self
  have up : (n : ℚ) / d < (2 : ℚ) ^ ((n.log2 : Int) - (d.log2 : Int) + 1) := by
    rw [div_lt_iff₀ hd', show (n.log2 : Int) - d.log2 + 1 = ((n.log2 + 1 : Nat) : Int) - (d.log2 : Int) by push_cast; ring,
      zpow_sub₀ (by norm_num), zpow_natCast, zpow_natCast, div_mul_eq_mul_div, lt_div_iff₀ (by positivity)]
    have := pow_pos (show (0:ℚ) < 2 by norm_num) d.log2
    nlinarith
  have lo : (2 : ℚ) ^ ((n.log2 : Int) - (d.log2 : Int) - 1) ≤ (n : ℚ) / d := by
    rw [le_div_iff₀ hd', show (n.log2 : Int) - d.log2 - 1 = (n.log2 : Int) - ((d.log2 + 1 : Nat) : Int) by push_cast; ring,
      zpow_sub₀ (by norm_num), zpow_natCast, zpow_natCast, div_mul_eq_mul_div, div_le_iff₀ (by positivity)]
    have := pow_pos (show (0:ℚ) < 2 by norm_num) n.log2
    nlinarith
  unfold floorLog2
  simp only
  split
  · rename_i h
    rw [quotBelowPow2_iff hd] at h
    exact ⟨lo, by simpa using h⟩
  · rename_i h
    rw [quotBelowPow2_iff hd, not_lt] at h
    exact ⟨h, up⟩

/-- The rounded multiple of 2^e is within half a unit of the quotient, and even where it is exactly half a unit away. -/
theorem roundScaled_spec {n d : Nat} (hd : 0 < d) (e : Int) :
    |(n : ℚ) / d - roundScaled n d e * 2 ^ e| ≤ 2 ^ e / 2 ∧
      (|(n : ℚ) / d - roundScaled n d e * 2 ^ e| = 2 ^ e / 2 → roundScaled n d e % 2 = 0) := by
  have hd' : (0 : ℚ) < d := by exact_mod_cast hd
  have key : ∀ (a b : Nat) (u : ℚ), 0 < b → 0 < u → (n : ℚ) / d = (a : ℚ) / b * u →
      |(n : ℚ) / d - roundQuot a b * u| ≤ u / 2 ∧ (|(n : ℚ) / d - roundQuot a b * u| = u / 2 → roundQuot a b % 2 = 0) := by
    intro a b u hb hu he
    have hb' : (0 : ℚ) < b := by exact_mod_cast hb
    obtain ⟨h1, h2, h3⟩ := roundQuot_spec (n := a) hb
    generalize roundQuot a b = q at *
    have h1' : 2 * (a : ℚ) ≤ 2 * (b * q) + b := by exact_mod_cast h1
    have h2' : 2 * ((b : ℚ) * q) ≤ 2 * a + b := by exact_mod_cast h2
    have hx : (n : ℚ) / d - q * u = ((a : ℚ) - b * q) / b * u := by rw [he]; field_simp
    rw [hx, abs_mul, abs_of_pos hu, abs_div, abs_of_pos hb']
    have ha : |(a : ℚ) - b * q| ≤ b / 2 := by rw [abs_le]; constructor <;> linarith
    constructor
    · have : |(a : ℚ) - b * q| / b ≤ 1 / 2 := by rw [div_le_iff₀ hb']; linarith
      nlinarith
    · intro h
      have : |(a : ℚ) - b * q| = b / 2 := by field_simp at h; linarith
      apply h3
      rcases abs_eq (by positivity) |>.1 this with h | h
      · left; have : 2 * (a : ℚ) = 2 * (b * q) + b := by linarith
        exact_mod_cast this
      · right; have : 2 * ((b : ℚ) * q) = 2 * a + b := by linarith
        exact_mod_cast this
  cases e with
  | ofNat k =>
    simp only [roundScaled, Int.ofNat_eq_natCast, zpow_natCast]
    exact key n (d * 2 ^ k) (2 ^ k) (by positivity) (by positivity) (by push_cast; field_simp)
  | negSucc k =>
    simp only [roundScaled, zpow_negSucc]
    exact key (n * 2 ^ (k + 1)) d (2 ^ (k + 1))⁻¹ hd (by positivity) (by push_cast; field_simp)

end Sys2Proof.Machine
end

