-- ==== Sys2Proof/Laws/Decode.lean ====
section
/-! SUPPORT. The bits of placed fields and parsed codes, frames and their words, and what the decoder answers. -/

namespace Sys2Proof

/-- The bits of a placed field. -/
@[simp] theorem place_getLsbD {n : Nat} (v : BitVec n) (lo i : Nat) :
    (place v lo).getLsbD i = (decide (i < 32) && decide (lo ≤ i) && v.getLsbD (i - lo)) := by
  simp only [place, BitVec.getLsbD_shiftLeft, BitVec.getLsbD_setWidth]
  by_cases h1 : i < 32
  · have h2 : i - lo < 32 := by omega
    by_cases h3 : lo ≤ i
    · simp [h1, h2, h3, Nat.not_lt.2 h3]
    · simp [h1, h3, Nat.lt_of_not_le h3]
  · simp [h1]

/-- A frame's word gives the frame back (20_memory.md R65). -/
@[simp] theorem frameOfWord_frameWord (f : Frame) : frameOfWord (frameWord f) = f := by
  cases f with
  | mk b0 b1 b2 b3 =>
    have h8 : ∀ (b : Byte) j, 8 ≤ j → b.getLsbD j = false := fun b j hj => BitVec.getLsbD_of_ge b j hj
    simp only [frameOfWord, frameWord, Frame.mk.injEq]
    refine ⟨?_, ?_, ?_, ?_⟩ <;> apply BitVec.eq_of_getLsbD_eq <;> intro k hk <;>
      simp only [BitVec.getLsbD_extractLsb', BitVec.getLsbD_or, place_getLsbD, hk, decide_true, Bool.true_and]
    · rw [h8 b1 _ (by omega), h8 b2 _ (by omega), h8 b3 _ (by omega)]
      simp [show 24 + k < 32 by omega]
    · rw [h8 b2 _ (by omega), h8 b3 _ (by omega)]
      simp [show 16 + k < 32 by omega, show ¬ 24 ≤ 16 + k by omega]
    · rw [h8 b3 _ (by omega)]
      simp [show 8 + k < 32 by omega, show ¬ 24 ≤ 8 + k by omega, show ¬ 16 ≤ 8 + k by omega]
    · simp [show k < 32 by omega, show ¬ 24 ≤ k by omega, show ¬ 16 ≤ k by omega, show ¬ 8 ≤ k by omega]

/-- What the decoder yields is well-formed. -/
theorem decode_wellFormed {p : Port} {w : Word} {i : Instr} (h : decode p w = .ok i) : WellFormed i := by
  unfold decode at h
  split at h
  · cases h
  · cases p with
    | cmd => cases h; unfold decodeCmd; split <;> rfl
    | bus => cases h; unfold decodeBus; split <;> rfl
    | frame =>
      cases h
      have hs : ∀ f : Frame, (decodeFrame f).wf = true := by
        intro f
        have h4 := (frameStatus f).isLt
        unfold decodeFrame
        split <;> simp only [Instr.wf, beq_iff_eq] <;> (apply BitVec.eq_of_toNat_eq; simp_all; try omega)
      exact hs _
    | seq b =>
      simp only [decodeSeq] at h
      split at h <;> first
        | (cases h; rfl)
        | (cases h; cases b <;> rfl)
        | cases h
    | _ => cases h; rfl

end Sys2Proof

namespace Sys2Proof.Machine

open Sys2Proof

/-- The bits of the humidity code (42_decoder_scaler.md R173). -/
theorem parseHcode_getLsbD (b0 b1 : Byte) (i : Nat) :
    (parseHcode b0 b1).getLsbD i = if i < 8 then b1.getLsbD i else (decide (i < 14) && b0.getLsbD (i - 8)) := by
  unfold parseHcode
  rw [BitVec.getLsbD_append]
  by_cases h : i < 8
  · simp [h]
  · have : i - 8 < 6 ↔ i < 14 := by omega
    simp [h, this]

/-- The bits of the temperature code (R174). -/
theorem parseTcode_getLsbD (b2 b3 : Byte) (i : Nat) :
    (parseTcode b2 b3).getLsbD i = if i < 6 then b3.getLsbD (2 + i) else b2.getLsbD (i - 6) := by
  unfold parseTcode
  rw [BitVec.getLsbD_append]
  by_cases h : i < 6
  · simp [h]
  · simp [h]

end Sys2Proof.Machine
end

