-- ==== Sys2Proof/Laws/State.lean ====
section
/-! SUPPORT. One lemma per field per update of the state and of the registers, true by rfl. -/

namespace Sys2Proof.Machine

open Sys2Proof

variable (s : State) (e : Engine) (d : Delivered) (ev : BusEvent) (ms : Nat)


/-! ### State.setEng -/

@[simp] theorem State.setEng_inst : (s.setEng e).inst = s.inst := rfl
@[simp] theorem State.setEng_eng : (s.setEng e).eng = e := rfl
@[simp] theorem State.setEng_parked : (s.setEng e).parked = s.parked := rfl
@[simp] theorem State.setEng_cfg : (s.setEng e).cfg = s.cfg := rfl
@[simp] theorem State.setEng_turns : (s.setEng e).turns = s.turns := rfl
@[simp] theorem State.setEng_trigScript : (s.setEng e).trigScript = s.trigScript := rfl
@[simp] theorem State.setEng_readScript : (s.setEng e).readScript = s.readScript := rfl
@[simp] theorem State.setEng_draws : (s.setEng e).draws = s.draws := rfl
@[simp] theorem State.setEng_history : (s.setEng e).history = s.history := rfl
@[simp] theorem State.setEng_out : (s.setEng e).out = s.out := rfl

/-! ### State.deliver -/

@[simp] theorem State.deliver_inst : (s.deliver d).inst = s.inst := rfl
@[simp] theorem State.deliver_eng : (s.deliver d).eng = s.eng := rfl
@[simp] theorem State.deliver_parked : (s.deliver d).parked = s.parked := rfl
@[simp] theorem State.deliver_cfg : (s.deliver d).cfg = s.cfg := rfl
@[simp] theorem State.deliver_turns : (s.deliver d).turns = s.turns := rfl
@[simp] theorem State.deliver_trigScript : (s.deliver d).trigScript = s.trigScript := rfl
@[simp] theorem State.deliver_readScript : (s.deliver d).readScript = s.readScript := rfl
@[simp] theorem State.deliver_draws : (s.deliver d).draws = s.draws := rfl
@[simp] theorem State.deliver_history : (s.deliver d).history = s.history := rfl
@[simp] theorem State.deliver_out : (s.deliver d).out = some d := rfl

/-! ### State.record -/

@[simp] theorem State.record_inst : (s.record ev).inst = s.inst := rfl
@[simp] theorem State.record_eng : (s.record ev).eng = s.eng := rfl
@[simp] theorem State.record_parked : (s.record ev).parked = s.parked := rfl
@[simp] theorem State.record_cfg : (s.record ev).cfg = s.cfg := rfl
@[simp] theorem State.record_turns : (s.record ev).turns = s.turns := rfl
@[simp] theorem State.record_trigScript : (s.record ev).trigScript = s.trigScript := rfl
@[simp] theorem State.record_readScript : (s.record ev).readScript = s.readScript := rfl
@[simp] theorem State.record_draws : (s.record ev).draws = s.draws := rfl
@[simp] theorem State.record_history : (s.record ev).history = s.history ++ [ev] := rfl
@[simp] theorem State.record_out : (s.record ev).out = s.out := rfl

/-! ### delay -/

@[simp] theorem delay_inst : (delay ms s).inst = s.inst := rfl
@[simp] theorem delay_eng : (delay ms s).eng = s.eng := rfl
@[simp] theorem delay_parked : (delay ms s).parked = s.parked := rfl
@[simp] theorem delay_cfg : (delay ms s).cfg = s.cfg := rfl
@[simp] theorem delay_turns : (delay ms s).turns = s.turns := rfl
@[simp] theorem delay_trigScript : (delay ms s).trigScript = s.trigScript := rfl
@[simp] theorem delay_readScript : (delay ms s).readScript = s.readScript := rfl
@[simp] theorem delay_draws : (delay ms s).draws = s.draws := rfl
@[simp] theorem delay_history : (delay ms s).history = s.history ++ [.delay s.inst ms] := rfl
@[simp] theorem delay_out : (delay ms s).out = s.out := rfl

@[simp] theorem State.setEng_self : s.setEng s.eng = s := rfl
@[simp] theorem State.setEng_setEng (e e' : Engine) : (s.setEng e).setEng e' = s.setEng e' := rfl

/-! ### acceptPrologue -/

@[simp] theorem acceptPrologue_bound : (acceptPrologue e).bound = e.bound := rfl
@[simp] theorem acceptPrologue_busref : (acceptPrologue e).busref = e.busref := rfl
@[simp] theorem acceptPrologue_addr : (acceptPrologue e).addr = e.addr := rfl
@[simp] theorem acceptPrologue_state : (acceptPrologue e).state = .idle := rfl
@[simp] theorem acceptPrologue_run : (acceptPrologue e).run = e.run := rfl
@[simp] theorem acceptPrologue_op : (acceptPrologue e).op = e.op := rfl
@[simp] theorem acceptPrologue_retryCnt : (acceptPrologue e).retryCnt = 0#16 := rfl
@[simp] theorem acceptPrologue_retryLimit : (acceptPrologue e).retryLimit = e.retryLimit := rfl
@[simp] theorem acceptPrologue_frame : (acceptPrologue e).frame = none := rfl
@[simp] theorem acceptPrologue_hc : (acceptPrologue e).hc = none := rfl
@[simp] theorem acceptPrologue_tc : (acceptPrologue e).tc = none := rfl
@[simp] theorem acceptPrologue_hum : (acceptPrologue e).hum = none := rfl
@[simp] theorem acceptPrologue_temp : (acceptPrologue e).temp = none := rfl
@[simp] theorem acceptPrologue_val : (acceptPrologue e).val = none := rfl
@[simp] theorem acceptPrologue_done : (acceptPrologue e).done = false := rfl
@[simp] theorem acceptPrologue_err : (acceptPrologue e).err = false := rfl
@[simp] theorem acceptPrologue_valid : (acceptPrologue e).valid = false := rfl
@[simp] theorem acceptPrologue_errkind : (acceptPrologue e).errkind = .none := rfl
@[simp] theorem acceptPrologue_buserr : (acceptPrologue e).buserr = 0#8 := rfl

/-! ### completeSuccess -/

@[simp] theorem completeSuccess_bound : (completeSuccess e).bound = e.bound := rfl
@[simp] theorem completeSuccess_busref : (completeSuccess e).busref = e.busref := rfl
@[simp] theorem completeSuccess_addr : (completeSuccess e).addr = e.addr := rfl
@[simp] theorem completeSuccess_state : (completeSuccess e).state = e.state := rfl
@[simp] theorem completeSuccess_run : (completeSuccess e).run = false := rfl
@[simp] theorem completeSuccess_op : (completeSuccess e).op = e.op := rfl
@[simp] theorem completeSuccess_retryCnt : (completeSuccess e).retryCnt = e.retryCnt := rfl
@[simp] theorem completeSuccess_retryLimit : (completeSuccess e).retryLimit = e.retryLimit := rfl
@[simp] theorem completeSuccess_frame : (completeSuccess e).frame = e.frame := rfl
@[simp] theorem completeSuccess_hc : (completeSuccess e).hc = e.hc := rfl
@[simp] theorem completeSuccess_tc : (completeSuccess e).tc = e.tc := rfl
@[simp] theorem completeSuccess_hum : (completeSuccess e).hum = e.hum := rfl
@[simp] theorem completeSuccess_temp : (completeSuccess e).temp = e.temp := rfl
@[simp] theorem completeSuccess_val : (completeSuccess e).val = (match e.op with | .rdt => e.temp | .rdh => e.hum | .acq => e.val) := rfl
@[simp] theorem completeSuccess_done : (completeSuccess e).done = true := rfl
@[simp] theorem completeSuccess_err : (completeSuccess e).err = e.err := rfl
@[simp] theorem completeSuccess_valid : (completeSuccess e).valid = e.valid := rfl
@[simp] theorem completeSuccess_errkind : (completeSuccess e).errkind = e.errkind := rfl
@[simp] theorem completeSuccess_buserr : (completeSuccess e).buserr = e.buserr := rfl

/-! ### completeFailure -/

@[simp] theorem completeFailure_bound : (completeFailure e).bound = e.bound := rfl
@[simp] theorem completeFailure_busref : (completeFailure e).busref = e.busref := rfl
@[simp] theorem completeFailure_addr : (completeFailure e).addr = e.addr := rfl
@[simp] theorem completeFailure_state : (completeFailure e).state = e.state := rfl
@[simp] theorem completeFailure_run : (completeFailure e).run = false := rfl
@[simp] theorem completeFailure_op : (completeFailure e).op = e.op := rfl
@[simp] theorem completeFailure_retryCnt : (completeFailure e).retryCnt = e.retryCnt := rfl
@[simp] theorem completeFailure_retryLimit : (completeFailure e).retryLimit = e.retryLimit := rfl
@[simp] theorem completeFailure_frame : (completeFailure e).frame = e.frame := rfl
@[simp] theorem completeFailure_hc : (completeFailure e).hc = e.hc := rfl
@[simp] theorem completeFailure_tc : (completeFailure e).tc = e.tc := rfl
@[simp] theorem completeFailure_hum : (completeFailure e).hum = none := rfl
@[simp] theorem completeFailure_temp : (completeFailure e).temp = none := rfl
@[simp] theorem completeFailure_val : (completeFailure e).val = (match e.op with | .rdt => some lossySentinel | .rdh => some lossySentinel | .acq => e.val) := rfl
@[simp] theorem completeFailure_done : (completeFailure e).done = true := rfl
@[simp] theorem completeFailure_err : (completeFailure e).err = true := rfl
@[simp] theorem completeFailure_valid : (completeFailure e).valid = e.valid := rfl
@[simp] theorem completeFailure_errkind : (completeFailure e).errkind = e.errkind := rfl
@[simp] theorem completeFailure_buserr : (completeFailure e).buserr = e.buserr := rfl

end Sys2Proof.Machine
end

