-- ==== Sys2Proof/Laws/Ops.lean ====
section
/-! SUPPORT. One lemma for each shared operation: everything it can do. The proofs cite these instead of unfolding the
operations. -/

namespace Sys2Proof.Machine

open Sys2Proof

/-! ### The transport -/

/-- Everything a trigger does to the state: one answer, one event, the script or the draw counter moved on. -/
theorem busTrigger_spec (bus : BusSel) (addr : BusAddr) (s : State) :
    ∃ r : TrigAnswer, (∀ x rest, s.trigScript = x :: rest → r = x) ∧
      busTrigger bus addr s = (r, { s with
        trigScript := s.trigScript.tail
        draws := if s.trigScript.isEmpty then s.draws + 1 else s.draws
        history := s.history ++ [.trig s.inst bus addr r] }) := by
  cases h : s.trigScript with
  | nil => exact ⟨Config.oracleTrig s.draws bus addr, by simp, by simp [busTrigger, h, State.record]⟩
  | cons x rest => exact ⟨x, by simp, by simp [busTrigger, h, State.record]⟩

/-- Everything a read does to the state. -/
theorem busRead4_spec (bus : BusSel) (addr : BusAddr) (s : State) :
    ∃ r : ReadAnswer, (∀ x rest, s.readScript = x :: rest → r = x) ∧
      busRead4 bus addr s = (r, { s with
        readScript := s.readScript.tail
        draws := if s.readScript.isEmpty then s.draws + 1 else s.draws
        history := s.history ++ [.read s.inst bus addr r] }) := by
  cases h : s.readScript with
  | nil => exact ⟨Config.oracleRead s.draws bus addr, by simp, by simp [busRead4, h, State.record]⟩
  | cons x rest => exact ⟨x, by simp, by simp [busRead4, h, State.record]⟩

/-! ### Commands -/

/-- A command while RUN = 1 changes nothing (R121). -/
theorem command_busy (body : Engine → Engine) {s : State} (h : s.eng.run = true) : command body s = s := by
  simp [command, h]

/-- A command while RUN = 0 is the prologue, then its own part (R120). -/
theorem command_accepted (body : Engine → Engine) {s : State} (h : s.eng.run = false) :
    command body s = s.setEng (body (acceptPrologue s.eng)) := by
  simp [command, h]

/-- What the meanings of the CMD rows are, said once. -/
theorem exec_cmd_cases {i : Instr} (h : isCmdRow i = true) (s : State) :
    ∃ body, exec i s = .next (command body s) ∧
      ((∃ bus addr, i = .init bus addr ∧ body = bindHandle s.cfg bus addr) ∨ (∃ op, body = startCycle op) ∨
        (body = raise .cmdRefused)) := by
  cases i <;> first
    | (simp [isCmdRow, portOf] at h; done)
    | exact ⟨_, rfl, .inl ⟨_, _, rfl, rfl⟩⟩
    | exact ⟨_, rfl, .inr (.inl ⟨_, rfl⟩)⟩
    | exact ⟨_, rfl, .inr (.inr rfl)⟩

/-! ### Steps that exist only under a precondition -/

/-- A guarded step answers a next state exactly where its precondition holds. -/
theorem whenEnabled_next {c : Bool} {s t : State} : whenEnabled c s = .next t ↔ c = true ∧ s = t := by
  cases c <;> simp [whenEnabled]

/-- The precondition of a sequencer step. -/
@[simp] theorem enabled_iff {st : SeqState} {e : Engine} : enabled st e = true ↔ e.run = true ∧ e.state = st := by
  simp [enabled]

/-- LimitReached in words (R148). -/
theorem limitReached_iff {e : Engine} :
    limitReached e = true ↔ e.retryLimit ≠ Config.retryUnbounded ∧ e.retryLimit.toNat ≤ e.retryCnt.toNat := by
  simp [limitReached]

/-- LimitReached is false in words (R148). -/
theorem limitReached_false_iff {e : Engine} :
    limitReached e = false ↔ e.retryLimit = Config.retryUnbounded ∨ e.retryCnt.toNat < e.retryLimit.toNat := by
  rw [Bool.eq_false_iff, ne_eq, limitReached_iff]
  by_cases h : e.retryLimit = Config.retryUnbounded <;> simp [h]

/-- The saturating count (R144, D30). -/
theorem retryCntNext_toNat (c : BitVec 16) : (retryCntNext c).toNat = min (c.toNat + 1) 0xFFFF := by
  unfold retryCntNext
  split
  · rename_i h; subst h; rfl
  · rename_i h
    have h1 : c.toNat ≠ 0xFFFF := fun hc => h (BitVec.eq_of_toNat_eq (by simpa using hc))
    have h2 := c.isLt
    rw [BitVec.toNat_add]
    simp only [BitVec.toNat_ofNat]
    omega

/-! ### The frame registers -/

/-- Reading the frame registers: the frame they hold, or a free one that they hold from then on. -/
theorem readFrame_spec (s : State) : ∃ f : Frame, (∀ g, s.eng.frame = some g → f = g) ∧
    readFrame s = (f, { s with
      draws := if s.eng.frame.isNone then s.draws + 1 else s.draws
      eng := { s.eng with frame := some f } }) := by
  cases h : s.eng.frame with
  | none => exact ⟨Config.freeFrame s.draws, by simp, by simp [readFrame, h, State.setEng]⟩
  | some f =>
    refine ⟨f, by simp, ?_⟩
    simp only [readFrame, h, Option.isNone_some]
    cases s with
    | mk inst eng parked cfg turns ts rs draws history out => cases eng; simp_all

/-- Reading frame registers that hold a frame changes nothing. -/
theorem readFrame_held {s : State} {f : Frame} (h : s.eng.frame = some f) : readFrame s = (f, s) := by
  simp [readFrame, h]

/-! ### Host reads and reset -/

/-- Everything a host read does: it delivers a word, the register's where it holds one, and changes nothing else but,
where it holds none, the count of free values. -/
theorem deliverRead_spec (v : Option Word) (s : State) : ∃ (w : Word) (d : Nat),
    deliverRead v s = { s with draws := d, out := some (.hostWord w) } ∧
      (∀ x, v = some x → w = x ∧ d = s.draws) ∧ (v = none → d = s.draws + 1) := by
  cases v with
  | none => exact ⟨Config.freeResult s.draws, _, rfl, by simp, fun _ => rfl⟩
  | some x => exact ⟨x, s.draws, rfl, by simp, by simp⟩

/-- Everything a reset does: the registers, and one delay in the history where the retry's read is cut short. -/
theorem resetAt_spec (m : ResetMoment) (s : State) :
    resetAt m s = { s with
      eng := Engine.reset
      history := s.history ++
        if m = .inRetryRead ∧ enabled .notReady s.eng = true ∧ limitReached s.eng = false then
          [.delay s.inst Config.retryDelayMs] else [] } := by
  cases m <;> simp only [resetAt, resetEngine, completedPart, State.setEng]
  · simp
  · by_cases h : (enabled .notReady s.eng && !limitReached s.eng) = true
    · have h' := h
      simp only [Bool.and_eq_true, Bool.not_eq_true'] at h'
      rw [if_pos h]; simp only [delay, State.record, h', and_self, if_true]
    · have h' := h
      simp only [Bool.and_eq_true, Bool.not_eq_true'] at h'
      rw [if_neg h, if_neg (fun x => h' x.2)]; simp

/-! ### Instances -/

/-- Taking an instance out leaves the others, in some order. -/
theorem takeParked_perm {k : Nat} :
    ∀ {l : List (Nat × Engine)} {e : Engine} {r : List (Nat × Engine)}, takeParked k l = some (e, r) →
      l.Perm ((k, e) :: r)
  | [], _, _, h => by simp [takeParked] at h
  | (j, x) :: l, e, r, h => by
    unfold takeParked at h
    split at h
    · rename_i hj; cases h; subst hj; exact List.Perm.refl _
    · split at h
      · rename_i e' r' h'
        cases h
        exact ((takeParked_perm h').cons _).trans (List.Perm.swap _ _ _)
      · cases h

/-- Looking an instance up after another one was taken out of the parked list. -/
theorem takeParked_other {k j : Nat} (hkj : k ≠ j) :
    ∀ {l : List (Nat × Engine)} {e : Engine} {r : List (Nat × Engine)}, takeParked j l = some (e, r) →
      (takeParked k r).map Prod.fst = (takeParked k l).map Prod.fst
  | [], _, _, h => by simp [takeParked] at h
  | (i, x) :: l, e, r, h => by
    unfold takeParked at h
    split at h
    · rename_i hij
      cases h
      have : i ≠ k := by omega
      conv => rhs; unfold takeParked
      simp only [this, if_false]
      cases takeParked k l <;> rfl
    · split at h
      · rename_i e' r' hj
        cases h
        have ih := takeParked_other hkj hj
        unfold takeParked
        by_cases hik : i = k
        · simp [hik]
        · simp only [hik, if_false]
          cases h1 : takeParked k l <;> cases h2 : takeParked k r' <;> simp_all
      · cases h

/-- Everything bringing an instance into focus does: it is in focus with its registers, the parameters and records
are as before, and every instance keeps its registers. -/
theorem focus_spec {k : Nat} {s s' : State} (h : focus k s = some s') :
    s'.inst = k ∧ engineOf s k = some s'.eng ∧ (∀ j, engineOf s' j = engineOf s j) ∧
      s'.cfg = s.cfg ∧ s'.turns = s.turns ∧ s'.trigScript = s.trigScript ∧ s'.readScript = s.readScript ∧
      s'.draws = s.draws ∧ s'.history = s.history ∧ s'.out = s.out := by
  unfold focus at h
  split at h
  · rename_i hk; cases h; simp [engineOf, hk]
  · rename_i hk
    split at h
    · rename_i e r ht
      cases h
      refine ⟨rfl, by simp [engineOf, hk, ht], fun j => ?_, rfl, rfl, rfl, rfl, rfl, rfl, rfl⟩
      unfold engineOf
      by_cases hj : j = k
      · subst hj; simp [hk, ht]
      · simp only [hj, if_false]
        conv => lhs; unfold takeParked
        by_cases hi : s.inst = j
        · simp [hi]
        · simp only [hi, if_false]
          have ho := takeParked_other hj ht
          have hi' : ¬ j = s.inst := fun x => hi x.symm
          simp only [hi', if_false]
          rw [← ho]
          cases takeParked j r <;> rfl
    · cases h

/-- An instance can be brought into focus exactly where it exists. -/
theorem focus_exists {k : Nat} {s : State} {e : Engine} (h : engineOf s k = some e) : ∃ u, focus k s = some u := by
  unfold engineOf at h
  unfold focus
  split
  · exact ⟨s, rfl⟩
  · rename_i hk
    rw [if_neg hk] at h
    cases ht : takeParked k s.parked with
    | none => simp [ht] at h
    | some p => exact ⟨_, rfl⟩

/-- An instance that does not exist cannot be brought into focus. -/
theorem focus_none {k : Nat} {s : State} (h : engineOf s k = none) : focus k s = none := by
  unfold engineOf at h
  unfold focus
  split
  · rename_i hk; rw [if_pos hk] at h; cases h
  · rename_i hk
    rw [if_neg hk] at h
    cases ht : takeParked k s.parked with
    | none => rfl
    | some p => simp [ht] at h

/-- The instance that has waited longest exists. -/
theorem longestWaiting_exists (s : State) : ∃ e, engineOf s (longestWaiting s) = some e := by
  unfold longestWaiting engineOf
  cases h : s.parked.getLast? with
  | none => exact ⟨s.eng, by simp⟩
  | some p =>
    have hp : p ∈ s.parked := List.mem_of_getLast? h
    have ht : ∀ l : List (Nat × Engine), p ∈ l → ∃ q, takeParked p.1 l = some q := by
      intro l
      induction l with
      | nil => simp
      | cons x l ih =>
        intro hl
        unfold takeParked
        split
        · exact ⟨_, rfl⟩
        · rename_i hx
          obtain rfl | hl := List.mem_cons.1 hl
          · exact absurd rfl hx
          · obtain ⟨q, hq⟩ := ih hl
            exact ⟨_, by simp [hq]; rfl⟩
    obtain ⟨q, hq⟩ := ht _ hp
    by_cases hk : p.1 = s.inst
    · exact ⟨s.eng, by simp [hk]⟩
    · exact ⟨q.1, by simp [hk, hq]⟩

/-- The instance in focus, where it already is. -/
@[simp] theorem focus_self (s : State) : focus s.inst s = some s := by simp [focus]

end Sys2Proof.Machine
end

