-- ==== Sys2Proof/Laws/PerInstr.lean ====
section
/-! SUPPORT. For each operation: its encoding has no bit above its port's width. -/

namespace Sys2Proof.Laws.EncodingFits

open Sys2Proof

/-- The encoding fits the port. -/
def Statement (i : Instr) : Prop := (encode i).toNat < 2 ^ (portOf i).width

/-- A word whose bits from `n` up are 0 is below 2^n. -/
theorem fits_of_bits {w : Word} {n : Nat} (hw : ∀ i, n ≤ i → w.getLsbD i = false) : w.toNat < 2 ^ n :=
  Nat.lt_pow_two_of_testBit _ fun i hi => by simpa [BitVec.getLsbD] using hw i hi

theorem init (bus : BusSel) (addr : BusAddr) : Statement (.init bus addr) := (encode _).isLt
theorem acq : Statement .acq := by unfold Statement; decide
theorem rdt : Statement .rdt := by unfold Statement; decide
theorem rdh : Statement .rdh := by unfold Statement; decide
theorem reservedCmd0 : Statement .reservedCmd0 := by unfold Statement; decide
theorem reservedCmd5 : Statement .reservedCmd5 := by unfold Statement; decide
theorem reservedCmd6 : Statement .reservedCmd6 := by unfold Statement; decide
theorem reservedCmd7 : Statement .reservedCmd7 := by unfold Statement; decide
theorem reservedCmd8 : Statement .reservedCmd8 := by unfold Statement; decide
theorem reservedCmd9 : Statement .reservedCmd9 := by unfold Statement; decide
theorem reservedCmdA : Statement .reservedCmdA := by unfold Statement; decide
theorem reservedCmdB : Statement .reservedCmdB := by unfold Statement; decide
theorem reservedCmdC : Statement .reservedCmdC := by unfold Statement; decide
theorem reservedCmdD : Statement .reservedCmdD := by unfold Statement; decide
theorem reservedCmdE : Statement .reservedCmdE := by unfold Statement; decide
theorem reservedCmdF : Statement .reservedCmdF := by unfold Statement; decide

theorem trigger (a : BusAddr) : Statement (.trigger a) := by
  apply fits_of_bits; intro i hi
  have h : a.getLsbD (i - 1) = false := BitVec.getLsbD_of_ge a _ (by simp only [portOf, Port.width] at hi; omega)
  simp [encode, h]

theorem read4 (a : BusAddr) : Statement (.read4 a) := by
  apply fits_of_bits; intro i hi
  simp only [portOf, Port.width] at hi
  have h : a.getLsbD (i - 1) = false := BitVec.getLsbD_of_ge a _ (by omega)
  have h0 : i ≠ 0 := by omega
  simp [encode, h, h0]

theorem frameValid (f : Frame) : Statement (.frameValid f) := (encode _).isLt
theorem frameNotready01 (f : Frame) : Statement (.frameNotready01 f) := (encode _).isLt
theorem frameNotready10 (f : Frame) : Statement (.frameNotready10 f) := (encode _).isLt
theorem frameNotready11 (f : Frame) : Statement (.frameNotready11 f) := (encode _).isLt
theorem sTrig : Statement .sTrig := by unfold Statement; decide
theorem sRead : Statement .sRead := by unfold Statement; decide
theorem sChk : Statement .sChk := by unfold Statement; decide
theorem sRetry : Statement .sRetry := by unfold Statement; decide
theorem sTimeout : Statement .sTimeout := by unfold Statement; decide
theorem sDec : Statement .sDec := by unfold Statement; decide

theorem fStatus (b0 : Byte) : Statement (.fStatus b0) := by
  apply fits_of_bits; intro i hi
  have h : b0.getLsbD i = false := BitVec.getLsbD_of_ge b0 _ hi
  simp [encode, h]

theorem fHcode (b0 b1 : Byte) : Statement (.fHcode b0 b1) := by
  apply fits_of_bits; intro i hi
  simp only [portOf, Port.width] at hi
  have h0 : b0.getLsbD (i - 8) = false := BitVec.getLsbD_of_ge b0 _ (by omega)
  have h1 : b1.getLsbD i = false := BitVec.getLsbD_of_ge b1 _ (by omega)
  simp [encode, h0, h1]

theorem fTcode (b2 b3 : Byte) : Statement (.fTcode b2 b3) := by
  apply fits_of_bits; intro i hi
  simp only [portOf, Port.width] at hi
  have h0 : b2.getLsbD (i - 8) = false := BitVec.getLsbD_of_ge b2 _ (by omega)
  have h1 : b3.getLsbD i = false := BitVec.getLsbD_of_ge b3 _ (by omega)
  simp [encode, h0, h1]

theorem fScaleh (hc : Code) : Statement (.fScaleh hc) := by
  apply fits_of_bits; intro i hi
  have h : hc.getLsbD i = false := BitVec.getLsbD_of_ge hc _ hi
  simp [encode, h]

theorem fScalet (tc : Code) : Statement (.fScalet tc) := by
  apply fits_of_bits; intro i hi
  have h : tc.getLsbD i = false := BitVec.getLsbD_of_ge tc _ hi
  simp [encode, h]

theorem fDecode (b0 b1 b2 b3 : Byte) : Statement (.fDecode b0 b1 b2 b3) := (encode _).isLt

end Sys2Proof.Laws.EncodingFits
end

