-- ==== Sys2Proof/Laws/Step.lean ====
section
/-! SUPPORT. What a step can do, said once: the registers' ways to change, and that everything else keeps its value. -/

namespace Sys2Proof.Machine

open Sys2Proof

/-- The ways one operation can change the registers of the instance in focus. -/
inductive EngineStep (cfg : Config) (e : Engine) : Engine → Prop where
  /-- No register changes. -/
  | same : EngineStep cfg e e
  /-- A command is accepted (R120). -/
  | accepted (body : Engine → Engine) (hrun : e.run = false)
      (hbody : (∃ bus addr, body = bindHandle cfg bus addr) ∨ (∃ op, body = startCycle op) ∨
        body = raise .cmdRefused) :
      EngineStep cfg e (body (acceptPrologue e))
  /-- S_TRIG (R141). -/
  | trig (r : TrigAnswer) (hrun : e.run = true) (hst : e.state = .idle) : EngineStep cfg e (afterTrigger r e)
  /-- S_READ (R142). -/
  | read (r : ReadAnswer) (hrun : e.run = true) (hst : e.state = .triggered) : EngineStep cfg e (afterRead r e)
  /-- S_CHK, or the status check on a presented frame (R143). -/
  | gate (f : Frame) (hrun : e.run = true) (hst : e.state = .reading) : EngineStep cfg e (gateFrame f e)
  /-- S_RETRY (R144). -/
  | retry (r : ReadAnswer) (hrun : e.run = true) (hst : e.state = .notReady) (hlim : limitReached e = false) :
      EngineStep cfg e (afterRead r { e with retryCnt := retryCntNext e.retryCnt })
  /-- S_TIMEOUT (R145). -/
  | timeout (hrun : e.run = true) (hst : e.state = .notReady) (hlim : limitReached e = true) :
      EngineStep cfg e (raise .notReadyTimeout e)
  /-- S_DEC (R147), on the frame the registers hold or, where they hold none, on a free one. -/
  | dec (f : Frame) (hrun : e.run = true) (hst : e.state = .ready) (hf : ∀ g, e.frame = some g → f = g) :
      EngineStep cfg e (decodeFrameRegs cfg.fpEval f { e with frame := some f })
  /-- A write of RETRY_LIMIT (R128). -/
  | setLimit (v : BitVec 16) (hrun : e.run = false) : EngineStep cfg e { e with retryLimit := v }
  /-- Reset (R240). -/
  | reset : EngineStep cfg e Engine.reset

/-- What an operation of the table can do: one way of changing the registers of the instance in focus, and nothing to
the other instances, the parameters and the turns. -/
theorem exec_cases {i : Instr} {s t : State} (h : exec i s = .next t) :
    EngineStep s.cfg s.eng t.eng ∧ t.inst = s.inst ∧ t.parked = s.parked ∧ t.cfg = s.cfg ∧ t.turns = s.turns := by
  by_cases hc : isCmdRow i = true
  · obtain ⟨body, hb, hk⟩ := exec_cmd_cases hc s
    rw [hb] at h
    cases h
    cases hr : s.eng.run with
    | true => rw [command_busy body hr]; exact ⟨.same, rfl, rfl, rfl, rfl⟩
    | false =>
      rw [command_accepted body hr]
      refine ⟨.accepted body hr ?_, rfl, rfl, rfl, rfl⟩
      obtain ⟨b, a, -, rfl⟩ | hop | hre := hk
      · exact .inl ⟨b, a, rfl⟩
      · exact .inr (.inl hop)
      · exact .inr (.inr hre)
  · cases i with
    | trigger a =>
      obtain ⟨r, -, hb⟩ := busTrigger_spec s.eng.busref a s
      simp only [exec, execTrigger, hb] at h
      split at h <;> cases h
      exact ⟨.same, rfl, rfl, rfl, rfl⟩
    | read4 a =>
      obtain ⟨r, -, hb⟩ := busRead4_spec s.eng.busref a s
      simp only [exec, execRead4, hb] at h
      split at h <;> cases h
      exact ⟨.same, rfl, rfl, rfl, rfl⟩
    | frameValid f | frameNotready01 f | frameNotready10 f | frameNotready11 f =>
      obtain ⟨hen, rfl⟩ := whenEnabled_next.1 h
      obtain ⟨hr, hst⟩ := enabled_iff.1 hen
      exact ⟨.gate f hr hst, rfl, rfl, rfl, rfl⟩
    | sTrig =>
      obtain ⟨hen, rfl⟩ := whenEnabled_next.1 h
      obtain ⟨hr, hst⟩ := enabled_iff.1 hen
      obtain ⟨r, -, hb⟩ := busTrigger_spec s.eng.busref s.eng.addr s
      rw [hb]; exact ⟨.trig r hr hst, rfl, rfl, rfl, rfl⟩
    | sRead =>
      obtain ⟨hen, rfl⟩ := whenEnabled_next.1 h
      obtain ⟨hr, hst⟩ := enabled_iff.1 hen
      obtain ⟨r, -, hb⟩ := busRead4_spec s.eng.busref s.eng.addr s
      rw [hb]; exact ⟨.read r hr hst, rfl, rfl, rfl, rfl⟩
    | sChk =>
      obtain ⟨hen, rfl⟩ := whenEnabled_next.1 h
      obtain ⟨hr, hst⟩ := enabled_iff.1 hen
      obtain ⟨f, -, hb⟩ := readFrame_spec s
      rw [hb]; exact ⟨.gate f hr hst, rfl, rfl, rfl, rfl⟩
    | sRetry =>
      obtain ⟨hen, rfl⟩ := whenEnabled_next.1 h
      simp only [Bool.and_eq_true, enabled_iff, Bool.not_eq_true'] at hen
      obtain ⟨⟨hr, hst⟩, hl⟩ := hen
      obtain ⟨r, -, hb⟩ := busRead4_spec s.eng.busref s.eng.addr (delay Config.retryDelayMs s)
      rw [hb]; exact ⟨.retry r hr hst hl, rfl, rfl, rfl, rfl⟩
    | sTimeout =>
      obtain ⟨hen, rfl⟩ := whenEnabled_next.1 h
      simp only [Bool.and_eq_true, enabled_iff] at hen
      obtain ⟨⟨hr, hst⟩, hl⟩ := hen
      exact ⟨.timeout hr hst hl, rfl, rfl, rfl, rfl⟩
    | sDec =>
      obtain ⟨hen, rfl⟩ := whenEnabled_next.1 h
      obtain ⟨hr, hst⟩ := enabled_iff.1 hen
      obtain ⟨f, hf, hb⟩ := readFrame_spec s
      rw [hb]; exact ⟨.dec f hr hst hf, rfl, rfl, rfl, rfl⟩
    | fStatus | fHcode | fTcode | fScaleh | fScalet | fDecode =>
      cases h; exact ⟨.same, rfl, rfl, rfl, rfl⟩
    | init | acq | rdt | rdh
    | reservedCmd0 | reservedCmd5 | reservedCmd6 | reservedCmd7 | reservedCmd8 | reservedCmd9
    | reservedCmdA | reservedCmdB | reservedCmdC | reservedCmdD | reservedCmdE | reservedCmdF =>
      exact absurd rfl hc

/-- What a host access other than a command can do. -/
theorem hostAccess_cases {a : HostAccess} {s t : State} (h : hostAccess a s = .next t) :
    EngineStep s.cfg s.eng t.eng ∧ t.inst = s.inst ∧ t.parked = s.parked ∧ t.cfg = s.cfg ∧ t.turns = s.turns ∧
      t.history = s.history ∧ t.trigScript = s.trigScript ∧ t.readScript = s.readScript := by
  cases a with
  | read off size =>
    simp only [hostAccess] at h
    split at h
    · cases h
      obtain ⟨v, d, hd, -⟩ := deliverRead_spec (readReg s.eng off) s
      rw [hd]; exact ⟨.same, rfl, rfl, rfl, rfl, rfl, rfl, rfl⟩
    · cases h
  | write off size v =>
    simp only [hostAccess] at h
    split at h
    · cases h
      refine ⟨?_, rfl, rfl, rfl, rfl, rfl, rfl, rfl⟩
      simp only [State.setEng_eng, writeReg]
      split
      · rename_i hw; exact .setLimit _ hw.2
      · exact .same
    · cases h

/-- A host turn that is no word write of CMD is a register access. -/
theorem fetchHost_access {a : HostAccess} (s : State) (h : ∀ w, a ≠ .write 0 .word w) :
    fetchHost a s = .access a s := by
  unfold fetchHost
  split
  · exact absurd rfl (h _)
  · rfl

/-- The fetch of a turn whose instance exists. -/
theorem fetch_turn {s u : State} {t : Turn} {ts : List Turn} (ht : s.turns = t :: ts)
    (hu : focus t.target { s with turns := ts } = some u) : fetch s = fetchTurn t u := by
  simp [fetch, mover, ht, hu]

/-- The fetch of a turn whose instance does not exist. -/
theorem fetch_turn_none {s : State} {t : Turn} {ts : List Turn} (ht : s.turns = t :: ts)
    (hn : engineOf s t.target = none) : fetch s = .noInstance := by
  have hf : focus t.target { s with turns := ts } = none := focus_none (s := { s with turns := ts }) hn
  simp [fetch, mover, ht, hf]

/-- The fetch where no turn is left. -/
theorem fetch_noTurn {s u : State} (ht : s.turns = []) (hu : focus (longestWaiting s) s = some u) :
    fetch s = fetchSequencer u := by
  have hs : ({ s with turns := [] } : State) = s := by rw [← ht]
  simp [fetch, mover, ht, hs, hu]

/-- What the state is in which the next turn is taken: the mover in focus, the turn gone. -/
theorem fetch_state {s : State} {f : Fetched} (hf : fetch s = f) (hn : f ≠ .noInstance) :
    ∃ u, focus (mover s) { s with turns := s.turns.tail } = some u ∧
      ((∃ i, f = .instr i u) ∨ (∃ a, f = .access a u) ∨ (∃ m, f = .reset m u) ∨ f = .idle u ∨
        ∃ r, f = .undecodable r) := by
  have hw : ∀ p w (u : State), (∃ i, fetchWord p w u = .instr i u) ∨ ∃ r, fetchWord p w u = .undecodable r := by
    intro p w u; unfold fetchWord; cases decode p w <;> simp
  have hs : ∀ u : State, (∃ i, fetchSequencer u = .instr i u) ∨ fetchSequencer u = .idle u ∨
      ∃ r, fetchSequencer u = .undecodable r := by
    intro u; unfold fetchSequencer
    split
    · obtain h | h := hw (.seq (limitReached u.eng)) (seqWord u.eng) u
      · exact .inl h
      · exact .inr (.inr h)
    · exact .inr (.inl rfl)
  have hseq : ∀ u : State, (∃ i, fetchSequencer u = .instr i u) ∨ (∃ a, fetchSequencer u = .access a u) ∨
      (∃ m, fetchSequencer u = .reset m u) ∨ fetchSequencer u = .idle u ∨ ∃ r, fetchSequencer u = .undecodable r := by
    intro u
    obtain h | h | h := hs u
    · exact .inl h
    · exact .inr (.inr (.inr (.inl h)))
    · exact .inr (.inr (.inr (.inr h)))
  subst hf
  unfold fetch at hn ⊢
  split
  · rename_i hu; simp [hu] at hn
  · rename_i u hu
    refine ⟨u, hu, ?_⟩
    split
    · exact hseq u
    · rename_i t ts ht
      cases t with
      | host k a =>
        simp only [fetchTurn]
        by_cases ha : ∃ w, a = .write 0 .word w
        · obtain ⟨w, rfl⟩ := ha
          obtain h | h := hw .cmd w u
          · exact .inl h
          · exact .inr (.inr (.inr (.inr h)))
        · exact .inr (.inl ⟨a, fetchHost_access u (not_exists.1 ha)⟩)
      | reset k m => exact .inr (.inr (.inl ⟨m, rfl⟩))
      | sequencer k => exact hseq u
      | port k p w =>
        obtain h | h := hw p w u
        · exact .inl h
        · exact .inr (.inr (.inr (.inr h)))

/-- What a step can do: the mover comes into focus, its registers change in one of the ways of `EngineStep`, and the
other instances, the parameters and the turns to come stay. -/
theorem step_cases {s t : State} (h : step s = .next t) :
    ∃ u, focus (mover s) { s with turns := s.turns.tail } = some u ∧
      EngineStep u.cfg u.eng t.eng ∧ t.inst = u.inst ∧ t.parked = u.parked ∧ t.cfg = u.cfg ∧ t.turns = u.turns := by
  unfold step at h
  have hn : fetch s ≠ .noInstance := by intro hx; rw [hx] at h; cases h
  obtain ⟨u, hu, hf⟩ := fetch_state rfl hn
  refine ⟨u, hu, ?_⟩
  obtain ⟨i, hi⟩ | ⟨a, ha⟩ | ⟨m, hr⟩ | hd | ⟨r, hr⟩ := hf
  · rw [hi] at h; exact exec_cases h
  · rw [ha] at h
    obtain ⟨h1, h2, h3, h4, h5, -⟩ := hostAccess_cases h
    exact ⟨h1, h2, h3, h4, h5⟩
  · rw [hr] at h
    cases h
    rw [resetAt_spec]; exact ⟨.reset, rfl, rfl, rfl, rfl⟩
  · rw [hd] at h; cases h; exact ⟨.same, rfl, rfl, rfl, rfl⟩
  · rw [hr] at h; cases h

/-! ### Runs of one instance's sequencer alone -/

/-- Where only the sequencer of the instance in focus moves, that is what the next step fetches. -/
theorem fetch_alone {n : Nat} {s : State} (h : alone (n + 1) s) :
    fetch s = fetchSequencer { s with turns := s.turns.tail } := by
  obtain ⟨ht, hp⟩ | ⟨rest, ht⟩ := h
  · have hm : mover s = s.inst := by simp [mover, ht, longestWaiting, hp]
    simp [fetch, hm, focus, ht]
  · simp [fetch, mover, ht, List.replicate_succ, Turn.target, focus, fetchTurn]

/-- And it stays so, one step shorter. -/
theorem alone_next {n : Nat} {s t : State} (h : alone (n + 1) s) (hi : t.inst = s.inst) (hp : t.parked = s.parked)
    (ht : t.turns = s.turns.tail) : alone n t := by
  obtain ⟨h1, h2⟩ | ⟨rest, h1⟩ := h
  · exact .inl ⟨by rw [ht, h1]; rfl, hp.trans h2⟩
  · exact .inr ⟨rest, by rw [ht, h1, hi, List.replicate_succ]; rfl⟩

end Sys2Proof.Machine
end

