-- ==== Sys2Proof/Tests/Slice0.lean ====
section
/-! SUPPORT. The model's own tests: a written-out word for every row, ill-formed terms, one-step vectors of
spec/95_test_vectors.md, and a witness for the hypotheses of every statement that has some. -/

namespace Sys2Proof.Tests

open Sys2Proof Sys2Proof.Machine

/-! ### Builders -/

/-- A machine of one instance with the registers `e`. -/
def machine (e : Engine) : State := { State.reset with eng := e }

/-- A bound engine at rest. -/
def boundEngine : Engine := { Engine.reset with bound := true }

/-- A cycle of command `op` at STATE `st`, the frame registers holding `f`. -/
def cycling (op : Op) (st : SeqState) (f : Option Frame) : State :=
  machine { boundEngine with run := true, op := op, state := st, frame := f }

/-- A frame of four bytes. -/
def frameOf (b0 b1 b2 b3 : Byte) : Frame := { b0 := b0, b1 := b1, b2 := b2, b3 := b3 }

/-- STATUS after an outcome. -/
def statusAfter (r : Result) : Option Word :=
  match r with
  | .next s => some (statusWord s.eng)
  | .fault _ => none
  | .refused _ => none

/-- The registers after an outcome. -/
def engineAfter (r : Result) : Option Engine :=
  match r with
  | .next s => some s.eng
  | .fault _ => none
  | .refused _ => none

/-- The outcome is a next state. -/
def runs (r : Result) : Bool :=
  match r with
  | .next _ => true
  | .fault _ => false
  | .refused _ => false

/-! ### Decoding: words written out bit by bit (30_encoding.md R91, R94, R95, R96, R98; the table's encodings) -/

theorem test_decode_init : decode .cmd 0b00000000000000010100010000000001#32 = .ok (.init 0x01#8 0x44#7) := by decide
theorem test_decode_init_ignored_bits :
    decode .cmd 0b10100101000000000100010011110001#32 = .ok (.init 0x00#8 0x44#7) := by decide
theorem test_decode_acq : decode .cmd 0b11111111111111111111111111110010#32 = .ok .acq := by decide
theorem test_decode_rdt : decode .cmd 0b00000000000000000000000000000011#32 = .ok .rdt := by decide
theorem test_decode_rdh : decode .cmd 0b00000000000000000000000000000100#32 = .ok .rdh := by decide
theorem test_decode_reserved0 : decode .cmd 0b00000000000000000000000000000000#32 = .ok .reservedCmd0 := by decide
theorem test_decode_reserved5 : decode .cmd 0b00000000000000000000000000000101#32 = .ok .reservedCmd5 := by decide
theorem test_decode_reserved6 : decode .cmd 0b00000000000000000000000000000110#32 = .ok .reservedCmd6 := by decide
theorem test_decode_reserved7 : decode .cmd 0b00000000000000000000000000000111#32 = .ok .reservedCmd7 := by decide
theorem test_decode_reserved8 : decode .cmd 0b00000000000000000000000000001000#32 = .ok .reservedCmd8 := by decide
theorem test_decode_reserved9 : decode .cmd 0b00000000000000000000000000001001#32 = .ok .reservedCmd9 := by decide
theorem test_decode_reservedA : decode .cmd 0b00000000000000000000000000001010#32 = .ok .reservedCmdA := by decide
theorem test_decode_reservedB : decode .cmd 0b00000000000000000000000000001011#32 = .ok .reservedCmdB := by decide
theorem test_decode_reservedC : decode .cmd 0b00000000000000000000000000001100#32 = .ok .reservedCmdC := by decide
theorem test_decode_reservedD : decode .cmd 0b00000000000000000000000000001101#32 = .ok .reservedCmdD := by decide
theorem test_decode_reservedE : decode .cmd 0b00000000000000000000000000001110#32 = .ok .reservedCmdE := by decide
theorem test_decode_reservedF : decode .cmd 0b00000000000000000000000000001111#32 = .ok .reservedCmdF := by decide
theorem test_decode_trigger : decode .bus 0b10001000#32 = .ok (.trigger 0x44#7) := by decide
theorem test_decode_read4 : decode .bus 0b10001001#32 = .ok (.read4 0x44#7) := by decide
theorem test_decode_frame_valid : decode .frame 0b00010010001101000100100011010000#32 =
    .ok (.frameValid (frameOf 0x12#8 0x34#8 0x48#8 0xD0#8)) := by decide
theorem test_decode_frame_01 : decode .frame 0b01000000000000000000000000000011#32 =
    .ok (.frameNotready01 (frameOf 0x40#8 0x00#8 0x00#8 0x03#8)) := by decide
theorem test_decode_frame_10 : decode .frame 0b10000000101010101011101111001100#32 =
    .ok (.frameNotready10 (frameOf 0x80#8 0xAA#8 0xBB#8 0xCC#8)) := by decide
theorem test_decode_frame_11 : decode .frame 0b11010010001101000100100011010011#32 =
    .ok (.frameNotready11 (frameOf 0xD2#8 0x34#8 0x48#8 0xD3#8)) := by decide
theorem test_decode_s_trig : decode (.seq false) 0b0000#32 = .ok .sTrig := by decide
theorem test_decode_s_read : decode (.seq false) 0b0001#32 = .ok .sRead := by decide
theorem test_decode_s_chk : decode (.seq false) 0b0010#32 = .ok .sChk := by decide
theorem test_decode_s_retry : decode (.seq false) 0b0011#32 = .ok .sRetry := by decide
theorem test_decode_s_timeout : decode (.seq true) 0b0011#32 = .ok .sTimeout := by decide
theorem test_decode_s_dec : decode (.seq false) 0b0100#32 = .ok .sDec := by decide
theorem test_decode_terminal_state : decode (.seq false) 0b0101#32 = .error .terminalState := by decide
theorem test_decode_unused_state : decode (.seq false) 0b1111#32 = .error .unusedState := by decide
theorem test_decode_too_wide : decode .bus 0b100000000#32 = .error .tooWide := by decide
theorem test_decode_f_status : decode .fStatus 0b01000000#32 = .ok (.fStatus 0x40#8) := by decide
theorem test_decode_f_hcode : decode .fHcode 0b1101001000110100#32 = .ok (.fHcode 0xD2#8 0x34#8) := by decide
theorem test_decode_f_tcode : decode .fTcode 0b0100100011010000#32 = .ok (.fTcode 0x48#8 0xD0#8) := by decide
theorem test_decode_f_scaleh : decode .fScaleh 0b01001000110100#32 = .ok (.fScaleh 4660#14) := by decide
theorem test_decode_f_scalet : decode .fScalet 0b11111111111111#32 = .ok (.fScalet 16383#14) := by decide
theorem test_decode_f_decode : decode .fDecode 0b00010010001101000100100011010000#32 =
    .ok (.fDecode 0x12#8 0x34#8 0x48#8 0xD0#8) := by decide

/-! ### WellFormed refuses a frame row that carries a frame of another status (R92, R108) -/

theorem test_ill_formed_valid : ¬ WellFormed (.frameValid (frameOf 0x40#8 0#8 0#8 0#8)) := by decide
theorem test_ill_formed_01 : ¬ WellFormed (.frameNotready01 (frameOf 0x3F#8 0#8 0#8 0#8)) := by decide
theorem test_ill_formed_10 : ¬ WellFormed (.frameNotready10 (frameOf 0xC0#8 0#8 0#8 0#8)) := by decide
theorem test_ill_formed_11 : ¬ WellFormed (.frameNotready11 (frameOf 0x80#8 0#8 0#8 0#8)) := by decide

/-! ### One step: host commands (95_test_vectors.md 2.1) -/

/-- V-CMD-4. -/
theorem test_init_status : statusAfter (exec (.init 0#8 0x44#7) State.reset) = some 0x00000012#32 := by decide

/-- V-CMD-3. -/
theorem test_init_error_status : statusAfter (exec (.init 1#8 0x44#7) State.reset) = some 0x00003006#32 := by decide

/-- V-CMD-1. -/
theorem test_acq_unbound_status : statusAfter (exec .acq State.reset) = some 0x00004006#32 := by decide

/-- V-CMD-7. -/
theorem test_acq_status : statusAfter (exec .acq (machine boundEngine)) = some 0x00000011#32 := by decide

/-- R124: OP = 1, BUSY and BOUND. -/
theorem test_rdt_status : statusAfter (exec .rdt (machine boundEngine)) = some 0x01000011#32 := by decide

/-- V-CMD-8: a command while busy is ignored. -/
theorem test_rdt_busy_status :
    statusAfter (exec .rdt (cycling .acq .triggered none)) = some 0x00000111#32 := by decide

/-- R125: OP = 2, BUSY and BOUND. -/
theorem test_rdh_status : statusAfter (exec .rdh (machine boundEngine)) = some 0x02000011#32 := by decide

/-- V-CMD-2. -/
theorem test_reserved0_status : statusAfter (exec .reservedCmd0 State.reset) = some 0x00004006#32 := by decide

/-- V-CMD-6. -/
theorem test_reservedF_status :
    statusAfter (exec .reservedCmdF (machine boundEngine)) = some 0x00004016#32 := by decide

/-- V-CMD-10: CONFIG after an INIT with another address. -/
theorem test_init_config : (engineAfter (exec (.init 0#8 0x45#7) State.reset)).map configWord =
    some 0x00000045#32 := by decide

/-! ### One step: the sequencer (95_test_vectors.md 2.2) -/

/-- V-SEQ-1. -/
theorem test_s_trig_error : statusAfter (exec .sTrig
    { cycling .acq .idle none with trigScript := [.err 0x07#8] }) = some 0x00071616#32 := by decide

/-- V-SEQ-15: the sentinel in VAL. -/
theorem test_s_trig_sentinel : (engineAfter (exec .sTrig
    { cycling .rdt .idle none with trigScript := [.err 0x07#8] })).map (·.val) =
    some (some 0x00000000#32) := by decide

/-- V-SEQ-2. -/
theorem test_s_read_error : statusAfter (exec .sRead
    { cycling .rdh .triggered none with readScript := [.err 0x02#8] }) = some 0x02021616#32 := by decide

/-- V-CHK: 0x3F is Ready. -/
theorem test_s_chk_ready : (engineAfter (exec .sChk
    (cycling .acq .reading (some (frameOf 0x3F#8 0xFF#8 0xFF#8 0xFF#8))))).map (·.state) = some .ready := by decide

/-- V-CHK: 0x40 is NotReady. -/
theorem test_s_chk_not_ready : (engineAfter (exec .sChk
    (cycling .acq .reading (some (frameOf 0x40#8 0#8 0#8 0#8))))).map (·.state) = some .notReady := by decide

/-- V-SEQ-12: a read that fails on a retry is a transport error, and the retry is counted. -/
theorem test_s_retry_error : (engineAfter (exec .sRetry
    { cycling .acq .notReady (some (frameOf 0x80#8 0#8 0#8 0#8)) with readScript := [.err 0x05#8] })).map
      (fun e => (statusWord e, e.retryCnt)) = some (0x00051616#32, 1#16) := by decide

/-- V-SEQ-9: with a limit of 0 the timeout comes at once. -/
theorem test_s_timeout_status : statusAfter (exec .sTimeout (machine { boundEngine with
    run := true, state := .notReady, retryLimit := 0#16 })) = some 0x00002716#32 := by decide

/-- V-SEQ-4, the decode step. -/
theorem test_s_dec_results : (engineAfter (exec .sDec
    (cycling .acq .ready (some (frameOf 0x12#8 0x34#8 0x48#8 0xD0#8))))).map (fun e => (statusWord e, e.hum, e.temp)) =
    some (0x0000051A#32, some 0x41E38D8E#32, some 0x40DDD977#32) := by decide

/-- P5, the decode step of RDH: VAL receives HUM. -/
theorem test_s_dec_val : (engineAfter (exec .sDec
    (cycling .rdh .ready (some (frameOf 0x1A#8 0x2C#8 0x66#8 0x68#8))))).map (fun e => (statusWord e, e.val)) =
    some (0x0200051A#32, some 0x4223958E#32) := by decide

/-! ### The parser and the scaler (95_test_vectors.md 2.3, 2.4) -/

/-- V-PAR-6. -/
theorem test_parser_masks : parseHcode 0xD2#8 0x34#8 = 4660#14 ∧ parseTcode 0x48#8 0xD3#8 = 4660#14 := by decide

/-- V-PAR-9: the byte boundaries. -/
theorem test_parser_boundaries : parseHcode 0x01#8 0x00#8 = 256#14 ∧ parseTcode 0x01#8 0x00#8 = 64#14 := by decide

/-- R177, its examples. -/
theorem test_scaleh : scaleH .exactRn 1#14 = 0x3BC80320#32 ∧ scaleH .b32Chain 4660#14 = 0x41E38D8E#32 := by decide

/-- R180, its sample: the two evaluations at code 3971. -/
theorem test_scalet : scaleT .exactRn 3971#14 = 0xBBD20348#32 ∧ scaleT .b32Chain 3971#14 = 0xBBD20000#32 := by decide

/-! ### A step runs the decoded instruction, and the interface of the host -/

/-- R40, V-CMD-4: INIT through a host turn. -/
theorem test_step_host_command : statusAfter (step { State.reset with
    turns := [.host 0 (.write 0x00 .word 0x00004401#32)] }) = some 0x00000012#32 := by decide

/-- A turn for an instance that does not exist. -/
theorem test_step_no_instance : step { State.reset with turns := [.reset 1 .betweenSteps] } = .fault .noSuchInstance := by rfl

/-- R6: an engine issues no transaction to another address than its own. -/
theorem test_trigger_other_address : exec (.trigger 0x45#7) (machine boundEngine) = .refused .notOwnDevice := by rfl

/-- The table word of S_RETRY runs as the very next step. -/
theorem test_with_fetch_word : runs (step (State.reset.withFetchWord 8 3)) = true := by rfl

/-! ### Witnesses: a state and operands that meet the hypotheses of each statement -/

theorem test_witness_DecodeOfEncode : WellFormed (.frameNotready11 (frameOf 0xFF#8 0xFF#8 0xFF#8 0xFF#8)) := by decide

theorem test_witness_EncodeOfDecode :
    Port.bus ≠ .cmd ∧ decode .bus 0xFF#32 = .ok (.read4 0x7F#7) ∧
    Port.seq true ≠ .cmd ∧ decode (.seq true) 4#32 = .ok .sDec := by decide

/-- Every one of the sixteen clauses, with every other bit at 1. -/
theorem test_witness_CommandCodeMap :
    ∀ c : Fin 16, (0xFFFFFFF0#32 ||| BitVec.ofNat 32 c.val).extractLsb' 0 4 = BitVec.ofNat 4 c.val := by decide

/-- Every class, at both ends of its range of byte 0. -/
theorem test_witness_FrameClassification :
    (0x00#8).extractLsb' 6 2 = 0b00#2 ∧ (0x3F#8).extractLsb' 6 2 = 0b00#2 ∧
    (0x40#8).extractLsb' 6 2 = 0b01#2 ∧ (0x7F#8).extractLsb' 6 2 = 0b01#2 ∧
    (0x80#8).extractLsb' 6 2 = 0b10#2 ∧ (0xBF#8).extractLsb' 6 2 = 0b10#2 ∧
    (0xC0#8).extractLsb' 6 2 = 0b11#2 ∧ (0xFF#8).extractLsb' 6 2 = 0b11#2 := by decide

theorem test_witness_SequencerSelection : 5 ≤ (5#32).toNat ∧ 5 ≤ (0xFFFFFFFF#32).toNat := by decide

theorem test_witness_CommandIgnoredWhileBusy :
    isCmdRow .rdt = true ∧ isCmdRow .reservedCmd0 = true ∧ (cycling .acq .triggered none).eng.run = true := by decide

/-- Each of the three clauses. -/
theorem test_witness_InitOutcomes :
    State.reset.eng.run = false ∧ (machine boundEngine).eng.run = false ∧
    (machine boundEngine).eng.bound = true ∧ State.reset.eng.bound = false ∧
    State.reset.cfg.busPresent.contains 1#8 = false ∧ State.reset.cfg.busPresent.contains 0#8 = true := by decide

/-- Each of the three causes. -/
theorem test_witness_RefusedCommands :
    State.reset.eng.run = false ∧ (machine boundEngine).eng.run = false ∧
    isReservedRow .reservedCmd0 = true ∧ isReservedRow .reservedCmdF = true ∧
    (machine boundEngine).eng.bound = true ∧ State.reset.eng.bound = false := by decide

theorem test_witness_AcquisitionStarts :
    (machine boundEngine).eng.run = false ∧ (machine boundEngine).eng.bound = true := by decide

theorem test_witness_AcceptanceClearsResults : State.reset.eng.run = false := by decide

/-- Each clause: the engine's own device, another address, and an unbound engine. -/
theorem test_witness_TriggerTransaction :
    ({ machine boundEngine with trigScript := [.ok] } : State).trigScript = .ok :: [] ∧
    (machine boundEngine).eng.bound = true ∧ (machine boundEngine).eng.addr = 0x44#7 ∧
    (machine boundEngine).eng.addr ≠ 0x45#7 ∧ State.reset.eng.bound = false := by decide

/-- Each clause. -/
theorem test_witness_ReadTransaction :
    ({ machine boundEngine with readScript := [.err 0xFF#8] } : State).readScript = .err 0xFF#8 :: [] ∧
    (machine boundEngine).eng.bound = true ∧ (machine boundEngine).eng.addr = 0x44#7 ∧
    (machine boundEngine).eng.addr ≠ 0x00#7 ∧ State.reset.eng.bound = false := by decide

/-- Each of the four clauses, at a boundary of its range. -/
theorem test_witness_FrameClassGate :
    (cycling .acq .reading none).eng.run = true ∧ (cycling .acq .reading none).eng.state = .reading ∧
    (0x3F#8).extractLsb' 6 2 = 0b00#2 ∧ (0x40#8).extractLsb' 6 2 = 0b01#2 ∧
    (0xBF#8).extractLsb' 6 2 = 0b10#2 ∧ (0xC0#8).extractLsb' 6 2 = 0b11#2 ∧
    (cycling .acq .reading (some (frameOf 0x40#8 0#8 0#8 0#8))).eng.frame = some (frameOf 0x40#8 0#8 0#8 0#8) := by
  decide

/-- Both clauses. -/
theorem test_witness_FreeFrameSteps :
    (cycling .acq .reading none).eng.run = true ∧ (cycling .acq .reading none).eng.frame = none ∧
    (cycling .acq .reading none).eng.state = .reading ∧
    (cycling .acq .ready none).eng.run = true ∧ (cycling .acq .ready none).eng.frame = none ∧
    (cycling .acq .ready none).eng.state = .ready := by decide

theorem test_witness_TriggerStep :
    (cycling .acq .idle none).eng.run = true ∧ (cycling .acq .idle none).eng.state = .idle := by decide

theorem test_witness_ReadStep :
    (cycling .rdt .triggered none).eng.run = true ∧ (cycling .rdt .triggered none).eng.state = .triggered := by decide

theorem test_witness_CheckStep :
    (cycling .rdt .reading (some (frameOf 0x3F#8 0#8 0#8 0#8))).eng.run = true ∧
    (cycling .rdt .reading (some (frameOf 0x3F#8 0#8 0#8 0#8))).eng.state = .reading ∧
    (cycling .rdt .reading (some (frameOf 0x3F#8 0#8 0#8 0#8))).eng.frame = some (frameOf 0x3F#8 0#8 0#8 0#8) := by
  decide

/-- No bound; and one retry below the bound. -/
theorem test_witness_RetryStep :
    (machine { boundEngine with
      run := true, state := .notReady, retryLimit := 0xFFFF#16, retryCnt := 0xFFFF#16 }).eng.retryLimit = 0xFFFF#16 ∧
    (cycling .acq .notReady none).eng.run = true ∧ (cycling .acq .notReady none).eng.state = .notReady ∧
    (machine { boundEngine with
      run := true, state := .notReady, retryCnt := 9#16 }).eng.retryCnt.toNat <
      (machine boundEngine).eng.retryLimit.toNat := by decide

/-- The bound just reached; and no bound. -/
theorem test_witness_TimeoutStep :
    (machine { boundEngine with run := true, state := .notReady, retryCnt := 10#16 }).eng.run = true ∧
    (machine { boundEngine with run := true, state := .notReady, retryCnt := 10#16 }).eng.state = .notReady ∧
    (machine { boundEngine with run := true, state := .notReady, retryCnt := 10#16 }).eng.retryLimit ≠ 0xFFFF#16 ∧
    boundEngine.retryLimit.toNat ≤ (10#16).toNat ∧
    (machine { boundEngine with run := true, state := .notReady, retryLimit := 0xFFFF#16 }).eng.retryLimit =
      0xFFFF#16 := by decide

theorem test_witness_DecodeStep :
    (cycling .rdh .ready (some (frameOf 0#8 0#8 0#8 0#8))).eng.run = true ∧
    (cycling .rdh .ready (some (frameOf 0#8 0#8 0#8 0#8))).eng.state = .ready ∧
    (cycling .rdh .ready (some (frameOf 0#8 0#8 0#8 0#8))).eng.frame = some (frameOf 0#8 0#8 0#8 0#8) := by decide

/-- Each clause: RUN = 0, RUN = 1 in another state, and in NotReady the limit reached and not reached. -/
theorem test_witness_StepsExistOnlyInTheirState :
    State.reset.eng.run = false ∧ (cycling .acq .ready none).eng.state ≠ .idle ∧
    (cycling .acq .idle none).eng.state ≠ .triggered ∧ (cycling .acq .triggered none).eng.state ≠ .reading ∧
    (cycling .acq .reading none).eng.state ≠ .notReady ∧ (cycling .acq .notReady none).eng.state ≠ .ready ∧
    boundEngine.retryLimit ≠ 0xFFFF#16 ∧ boundEngine.retryLimit.toNat ≤ (10#16).toNat ∧
    (9#16).toNat < boundEngine.retryLimit.toNat ∧ (cycling .acq .triggered none).eng.state ≠ .reading := by decide

/-- Bytes that differ in the ignored bits alone. -/
theorem test_witness_WholeDecode :
    (0xD2#8).extractLsb' 0 6 = (0x12#8).extractLsb' 0 6 ∧ (0xD3#8).extractLsb' 2 6 = (0xD0#8).extractLsb' 2 6 := by
  decide

theorem test_witness_TemperatureNearest : State.reset.cfg.fpEval = .exactRn := by decide

/-- Neighbouring codes at both ends. -/
theorem test_witness_StrictlyMonotone :
    (0#14).toNat < (1#14).toNat ∧ (16382#14).toNat < (16383#14).toNat := by decide

/-- Each clause. -/
theorem test_witness_NoSpecialValues : (0#14).toNat = 0 ∧ (1#14).toNat ≠ 0 := by decide

/-- The smallest and the greatest normal pattern. -/
theorem test_witness_Binary32Value :
    0 < b32Exp 0x00800000#32 ∧ b32Exp 0x00800000#32 < 255 ∧
    0 < b32Exp 0xFF7FFFFF#32 ∧ b32Exp 0xFF7FFFFF#32 < 255 := by decide

/-- The first reserved offset, and one far above. -/
theorem test_witness_ReservedOffsets : 0x20 ≤ 0x20 ∧ 0x20 % 4 = 0 ∧ 0x20 ≤ 0x1000 ∧ 0x1000 % 4 = 0 := by decide

/-- HUM with a value, VAL without. -/
theorem test_witness_ResultReads :
    (machine { boundEngine with hum := some 0x42C80000#32 }).eng.hum = some 0x42C80000#32 ∧
    State.reset.eng.val = none := by decide

/-- Each clause: at rest, during a cycle, and a read-only register. -/
theorem test_witness_RegisterWrites :
    State.reset.eng.run = false ∧ (cycling .acq .idle none).eng.run = true ∧
    0x04 % 4 = 0 ∧ 0x04 < 0x20 ∧ 0x04 ≠ 0x00 ∧ 0x04 ≠ 0x0C ∧
    0x1C % 4 = 0 ∧ 0x1C < 0x20 ∧ 0x1C ≠ 0x00 ∧ 0x1C ≠ 0x0C := by decide

/-- A half word at an aligned offset, and a word at an offset that is not. -/
theorem test_witness_NarrowAccessRefused : AccessSize.half ≠ .word ∧ 0x1E % 4 ≠ 0 := by decide

/-- Two instances: number 0 in the middle of a cycle and in focus, number 1 bound, at rest and parked. -/
def two : State := { cycling .acq .ready none with parked := [(1, boundEngine)] }

/-- `two` with number 1 in focus instead. -/
def twoSwapped : State := { two with inst := 1, eng := boundEngine, parked := [(0, two.eng)] }

/-- Hypotheses of the two clauses about OP: INIT, and a refused RDT. -/
theorem test_witness_NameNumbers :
    (∃ t, exec (.init 0#8 0x44#7) State.reset = .next t) ∧ isCmdRow .rdt = true ∧
    ∃ t, exec .rdt State.reset = .next t ∧ t.eng.errkind = .cmdRefused :=
  ⟨⟨_, rfl⟩, rfl, _, rfl, rfl⟩

/-- Each clause: a turn of the parked instance for the commands and ports, of the one in focus for the sequencer, no
turn, and a turn of no instance. -/
theorem test_witness_StepRunsDecoded :
    engineOf two 1 = some boundEngine ∧ focus 1 { two with turns := [] } = some twoSwapped ∧
    ({ two with turns := [.host 1 (.write 0x00 .word 2#32)] } : State).turns = .host 1 (.write 0x00 .word 2#32) :: [] ∧
    decode .cmd 2#32 = .ok .acq ∧
    ({ two with turns := [.port 1 .bus 0x88#32] } : State).turns = .port 1 .bus 0x88#32 :: [] ∧
    decode .bus 0x88#32 = .ok (.trigger 0x44#7) ∧
    ({ two with turns := [.sequencer 0] } : State).turns = .sequencer 0 :: [] ∧
    focus 0 { two with turns := [] } = some two ∧ two.eng.run = true ∧
    decode (.seq (limitReached two.eng)) ((stateCode two.eng.state).setWidth 32) = .ok .sDec ∧
    twoSwapped.turns = [] ∧ focus (longestWaiting twoSwapped) twoSwapped = some two ∧
    (machine boundEngine).parked = [] ∧
    engineOf two (Turn.sequencer 2).target = none := by decide

theorem test_witness_StepRunsHostAccess :
    ({ two with turns := [.host 1 (.read 0x04 .word)] } : State).turns = .host 1 (.read 0x04 .word) :: [] ∧
    focus 1 { two with turns := [] } = some twoSwapped ∧
    ∀ w, HostAccess.read 0x04 .word ≠ .write 0x00 .word w :=
  ⟨by decide, by decide, fun _ h => by cases h⟩

theorem test_witness_IdleSequencerChangesNothing :
    two.turns = [] ∧ focus (longestWaiting two) two = some twoSwapped ∧
    ({ two with turns := [.sequencer 1] } : State).turns = .sequencer 1 :: [] ∧
    focus 1 { two with turns := [] } = some twoSwapped ∧ twoSwapped.eng.run = false := by decide

/-- Reset in the middle of a cycle, in the retry's read, and of the parked instance. -/
theorem test_witness_ResetTurn :
    ({ cycling .rdt .notReady none with turns := [.reset 0 .inRetryRead] } : State).turns = .reset 0 .inRetryRead :: [] ∧
    focus 0 { cycling .rdt .notReady none with turns := [] } = some (cycling .rdt .notReady none) ∧
    (cycling .rdt .notReady none).eng.run = true ∧ (cycling .rdt .notReady none).eng.state = .notReady ∧
    (cycling .rdt .notReady none).eng.retryCnt.toNat < (cycling .rdt .notReady none).eng.retryLimit.toNat ∧
    ({ two with turns := [.reset 1 .betweenSteps] } : State).turns = .reset 1 .betweenSteps :: [] ∧
    focus 1 { two with turns := [] } = some twoSwapped := by decide

/-- R242: a reset in the retry's read leaves the completed delay in the history and nothing of the read. -/
theorem test_reset_in_retry_read :
    step { cycling .acq .notReady none with
      turns := [.reset 0 .inRetryRead], readScript := [.err 0x05#8] } =
    .next { State.reset with history := [.delay 0 100], readScript := [.err 0x05#8] } := by rfl

/-- R33, U7: a read of a register that holds no_value runs, and the register still holds none. -/
theorem test_read_no_value : (engineAfter (step { State.reset with turns := [.host 0 (.read 0x14 .word)] })).map (·.hum) =
    some none := by rfl

/-- The start of a scripted cycle, a second instance parked. -/
def scripted : State :=
  { cycling .rdt .idle none with
    parked := [(1, (cycling .acq .idle none).eng)]
    trigScript := [.ok]
    readScript := [.ok (frameOf 0x40#8 0#8 0#8 0#8), .ok (frameOf 0x00#8 0#8 0#8 0#8)] }

/-- The invariant of a bound engine at the start of a cycle. -/
theorem test_inv_cycle_start (op : Op) : EngineInv (cycling op .idle none).eng := by
  constructor <;> simp [cycling, machine, boundEngine, Engine.reset, SeqState.inCycle, SeqState.terminal]

theorem test_inv_scripted : Inv scripted :=
  ⟨test_inv_cycle_start .rdt, fun p h => by
    obtain rfl : p = (1, (cycling .acq .idle none).eng) := by simpa [scripted] using h
    exact test_inv_cycle_start .acq, by decide⟩

theorem test_witness_StepKeepsInv : Inv scripted ∧ ∃ t, step scripted = .next t :=
  ⟨test_inv_scripted, _, rfl⟩

theorem test_witness_HandleFixedWhileBound :
    (∃ t, step scripted = .next t) ∧ engineOf scripted 0 = some scripted.eng ∧ scripted.eng.bound = true ∧
    ∀ m ts, scripted.turns ≠ .reset 0 m :: ts :=
  ⟨⟨_, rfl⟩, rfl, rfl, fun _ _ h => by cases h⟩

/-- Without a turn (the parked instance moves), and with a turn of the parked instance. -/
theorem test_witness_InstancesShareNothing :
    (∃ t, step scripted = .next t) ∧ scripted.turns = [] ∧ 0 ≠ mover scripted ∧
    (scripted.inst :: scripted.parked.map Prod.fst).Nodup ∧
    (∃ t, step { scripted with turns := [.sequencer 1] } = .next t) ∧
    0 ≠ mover { scripted with turns := [.sequencer 1] } :=
  ⟨⟨_, rfl⟩, rfl, by decide, by decide, ⟨_, rfl⟩, by decide⟩

/-- R16: two instances without turns: after two steps each has moved once (S_TRIG on both). -/
theorem test_fair_without_turns :
    (match Host.Core.run core 2 { scripted with trigScript := [.ok, .ok] } with
      | .next t => (engineOf t 0).map (·.state) = some .triggered ∧ (engineOf t 1).map (·.state) = some .triggered
      | .fault _ => False
      | .refused _ => False) := ⟨rfl, rfl⟩

/-- A command clears DONE. -/
theorem test_witness_DoneClearedOnlyByCommand :
    ∃ t e', step { machine { boundEngine with done := true } with
        turns := [.host 0 (.write 0x00 .word 0x00000002#32)] } = .next t ∧
      engineOf (machine { boundEngine with done := true }) 0 = some { boundEngine with done := true } ∧
      engineOf t 0 = some e' ∧ e'.done = false :=
  ⟨_, _, rfl, rfl, rfl, rfl⟩

/-- The running instance in focus, and parked while the host accesses another one. -/
theorem test_witness_HostCannotDisturbCycle :
    ({ two with turns := [.host 0 (.write 0x0C .word 5#32)] } : State).turns = .host 0 (.write 0x0C .word 5#32) :: [] ∧
    engineOf two 0 = some two.eng ∧ two.eng.run = true ∧
    (∃ t, step { two with turns := [.host 0 (.write 0x0C .word 5#32)] } = .next t) ∧
    ({ twoSwapped with turns := [.host 1 (.write 0x00 .word 2#32)] } : State).turns =
      .host 1 (.write 0x00 .word 2#32) :: [] ∧
    engineOf twoSwapped 0 = some two.eng ∧
    ∃ t, step { twoSwapped with turns := [.host 1 (.write 0x00 .word 2#32)] } = .next t :=
  ⟨rfl, rfl, rfl, ⟨_, rfl⟩, rfl, rfl, _, rfl⟩

theorem test_witness_StepDependsOnOracleOnly :
    Inv scripted ∧ agree scripted { scripted with draws := 7, history := [.delay 0 100] } ∧
    scripted.trigScript ≠ [] ∧ scripted.readScript ≠ [] ∧ ∃ t, step scripted = .next t :=
  ⟨test_inv_scripted, rfl, by decide, by decide, _, rfl⟩

/-- One not-ready frame, then a valid one. -/
theorem test_witness_NotReadyThenValidCycle :
    alone 6 { scripted with turns := List.replicate 6 (.sequencer 0) } ∧ scripted.eng.run = true ∧ scripted.eng.state = .idle ∧ scripted.eng.retryCnt = 0#16 ∧
    scripted.trigScript = .ok :: [] ∧
    scripted.readScript = [frameOf 0x40#8 0#8 0#8 0#8].map .ok ++ .ok (frameOf 0x00#8 0#8 0#8 0#8) :: [] ∧
    (∀ f ∈ [frameOf 0x40#8 0#8 0#8 0#8], frameStatus f ≠ 0b00#2) ∧
    frameStatus (frameOf 0x00#8 0#8 0#8 0#8) = 0b00#2 ∧
    [frameOf 0x40#8 0#8 0#8 0#8].length ≤ scripted.eng.retryLimit.toNat :=
  ⟨.inr ⟨[], rfl⟩, by decide⟩

/-- The start of V-SEQ-11: the limit 1, and two not-ready frames. -/
def neverReady : State :=
  { machine { boundEngine with run := true, retryLimit := 1#16 } with
    trigScript := [.ok]
    readScript := [.ok (frameOf 0x80#8 0#8 0#8 0#8), .ok (frameOf 0xC0#8 0#8 0#8 0#8)] }

theorem test_witness_NeverReadyCycle :
    alone 6 neverReady ∧ neverReady.eng.run = true ∧ neverReady.eng.state = .idle ∧
    neverReady.eng.retryCnt = 0#16 ∧ neverReady.trigScript = .ok :: [] ∧
    neverReady.readScript = [frameOf 0x80#8 0#8 0#8 0#8].map .ok ++ .ok (frameOf 0xC0#8 0#8 0#8 0#8) :: [] ∧
    (∀ f ∈ [frameOf 0x80#8 0#8 0#8 0#8], frameStatus f ≠ 0b00#2) ∧
    frameStatus (frameOf 0xC0#8 0#8 0#8 0#8) ≠ 0b00#2 ∧ neverReady.eng.retryLimit ≠ 0xFFFF#16 ∧
    [frameOf 0x80#8 0#8 0#8 0#8].length = neverReady.eng.retryLimit.toNat :=
  ⟨.inl ⟨rfl, rfl⟩, by decide⟩

theorem test_witness_BoundedCycleEnds :
    alone 24 (cycling .rdt .idle none) ∧ EngineInv (cycling .rdt .idle none).eng ∧
    (cycling .rdt .idle none).eng.run = true ∧ (cycling .rdt .idle none).eng.state = .idle ∧
    (cycling .rdt .idle none).eng.retryLimit ≠ 0xFFFF#16 ∧
    2 * (cycling .rdt .idle none).eng.retryLimit.toNat + 4 ≤ 24 :=
  ⟨.inl ⟨rfl, rfl⟩, test_inv_cycle_start .rdt, rfl, rfl, by decide, by decide⟩

/-- The start of a cycle without a bound, one not-ready frame scripted. -/
def unbounded : State :=
  { machine { boundEngine with run := true, retryLimit := 0xFFFF#16 } with
    trigScript := [.ok]
    readScript := [.ok (frameOf 0x40#8 0#8 0#8 0#8)] }

theorem test_witness_UnboundedCycleRunsOn :
    alone 3 unbounded ∧ unbounded.eng.run = true ∧ unbounded.eng.state = .idle ∧
    unbounded.eng.retryLimit = 0xFFFF#16 ∧ unbounded.trigScript = .ok :: [] ∧
    unbounded.readScript = [frameOf 0x40#8 0#8 0#8 0#8].map .ok ++ [] ∧
    (∀ f ∈ [frameOf 0x40#8 0#8 0#8 0#8], frameStatus f ≠ 0b00#2) ∧
    3 ≤ 2 * [frameOf 0x40#8 0#8 0#8 0#8].length + 1 :=
  ⟨.inl ⟨rfl, rfl⟩, by decide⟩

theorem test_witness_CycleHistoryShape :
    alone 2 { scripted with turns := [.sequencer 0, .sequencer 0, .host 1 (.read 0x04 .word)] } ∧
    scripted.eng.run = true ∧ scripted.eng.state = .idle ∧
    ∃ t, Host.Core.run core 2
      { scripted with turns := [.sequencer 0, .sequencer 0, .host 1 (.read 0x04 .word)] } = .next t :=
  ⟨.inr ⟨[.host 1 (.read 0x04 .word)], rfl⟩, rfl, rfl, _, rfl⟩

end Sys2Proof.Tests
end

section
/-! PROOFS. Word reads of the registers, and the registers after reset (10_state.md R37, R38, R45). -/

namespace Sys2Proof.Machine

open Sys2Proof

/-- A field read back from its place. -/
theorem extractLsb'_place_same {n : Nat} (v : BitVec n) {lo : Nat} (h : lo + n ≤ 32) :
    (place v lo).extractLsb' lo n = v := by
  apply BitVec.eq_of_getLsbD_eq
  intro i hi
  rw [BitVec.getLsbD_extractLsb', place_getLsbD]
  simp [hi, show lo + i < 32 by omega]

/-- A placed field leaves every range of bits that it does not meet at 0. -/
theorem extractLsb'_place_disjoint {n : Nat} (v : BitVec n) {lo start len : Nat}
    (h : start + len ≤ lo ∨ lo + n ≤ start) : (place v lo).extractLsb' start len = 0#len := by
  apply BitVec.eq_of_getLsbD_eq
  intro i hi
  obtain hbelow | habove := h
  · simp [show ¬ lo ≤ start + i by omega]
  · simp [BitVec.getLsbD_of_ge v (start + i - lo) (by omega)]

/-- R67: a word read at an aligned offset delivers what the register there reads as. -/
theorem hostAccess_read_word {off : Nat} (h : off % 4 = 0) (s : State) :
    hostAccess (.read off .word) s = .next (deliverRead (readReg s.eng off) s) := by
  simp [hostAccess, alignedWord, h]

/-- R38: the one-bit flags of STATUS. -/
theorem statusWord_flags (e : Engine) :
    (statusWord e).getLsbD 0 = e.run ∧ (statusWord e).getLsbD 1 = e.done ∧ (statusWord e).getLsbD 2 = e.err ∧
      (statusWord e).getLsbD 3 = e.valid ∧ (statusWord e).getLsbD 4 = e.bound := by
  simp [statusWord, -BitVec.getLsbD_eq_getElem]

/-- R38, R98 to R100: the wider fields of STATUS. -/
theorem statusWord_fields (e : Engine) :
    (statusWord e).extractLsb' 8 4 = stateCode e.state ∧ (statusWord e).extractLsb' 12 3 = errKindCode e.errkind ∧
      (statusWord e).extractLsb' 16 8 = e.buserr ∧ (statusWord e).extractLsb' 24 2 = opCode e.op := by
  simp [statusWord, BitVec.extractLsb'_or, extractLsb'_place_same, extractLsb'_place_disjoint]

/-- R38: the reserved bits of STATUS read 0. -/
theorem statusWord_reserved (e : Engine) :
    (statusWord e).extractLsb' 5 3 = 0#3 ∧ (statusWord e).getLsbD 15 = false ∧
      (statusWord e).extractLsb' 26 6 = 0#6 := by
  simp [statusWord, BitVec.extractLsb'_or, extractLsb'_place_disjoint, -BitVec.getLsbD_eq_getElem]

/-- Settles O37: the read delivers the STATUS word, whose flags, wider fields and reserved bits are known. -/
theorem statusRead : Obligations.StatusRead := by
  intro s
  obtain ⟨hrun, hdone, herr, hvalid, hbound⟩ := statusWord_flags s.eng
  obtain ⟨hstate, herrkind, hbuserr, hop⟩ := statusWord_fields s.eng
  obtain ⟨hres5, hres15, hres26⟩ := statusWord_reserved s.eng
  exact ⟨statusWord s.eng, hostAccess_read_word rfl s, hrun, hdone, herr, hvalid, hbound, hres5, hstate, herrkind,
    hres15, hbuserr, hop, hres26⟩

/-- Settles O48: the instance of the reset state holds `Engine.reset`, which is R45's table written out. -/
theorem resetValues : Obligations.ResetValues := rfl

end Sys2Proof.Machine
end

section
/-! PROOFS. The command code map, the step that a SEQ word selects, and the commands that leave OP as it is
(30_encoding.md R95 to R100). -/

namespace Sys2Proof.Machine

open Sys2Proof

/-- Every word is a word of the CMD port, which is 32 bits wide. -/
theorem decode_cmd (w : Word) : decode .cmd w = .ok (decodeCmd w) := by
  simp [decode, Port.width, Nat.not_le.2 w.isLt]

/-- Settles O3: every word is decoded by `decodeCmd`, which looks at OPC alone to choose the row. -/
theorem commandCodeMap : Obligations.CommandCodeMap := by
  intro w
  simp only [decode_cmd, decodeCmd]
  and_intros <;> intro hopc <;> rw [hopc] <;> rfl

/-- R98: only the numbers 0 to 4 select a step. -/
theorem decodeSeq_ok_le {b : Bool} {w : Word} {i : Instr} (h : decodeSeq b w = .ok i) :
    (w.extractLsb' 0 4).toNat ≤ 4 := by
  unfold decodeSeq at h
  split at h
  case h_1 | h_2 | h_3 | h_4 | h_5 => omega
  all_goals cases h

/-- R98, R90: a word that selects a step is one of the numbers 0 to 4, since the SEQ port is 4 bits wide. -/
theorem decode_seq_ok_le {b : Bool} {w : Word} {i : Instr} (h : decode (.seq b) w = .ok i) : w.toNat ≤ 4 := by
  unfold decode at h
  split at h
  · cases h
  · rename_i hfits
    have hcode := decodeSeq_ok_le h
    rw [BitVec.extractLsb'_toNat] at hcode
    simp only [Port.width] at hfits
    omega

/-- Settles O5: the table of R98 is evaluated, and no word above 4 selects a step. -/
theorem sequencerSelection : Obligations.SequencerSelection := by
  refine ⟨by decide, by decide, by decide, by decide, ?_⟩
  intro b w hw i h
  have := decode_seq_ok_le h
  omega

/-- R206: a failure does not write OP. -/
@[simp] theorem raise_op (f : Failure) (e : Engine) : (raise f e).op = e.op := by
  cases f <;> rfl

/-- R122: INIT's own part does not write OP. -/
@[simp] theorem bindHandle_op (cfg : Config) (bus : BusSel) (addr : BusAddr) (e : Engine) :
    (bindHandle cfg bus addr e).op = e.op := by
  unfold bindHandle
  split
  · exact raise_op _ e
  · split
    · rfl
    · exact raise_op _ e

/-- R123 to R126: the start of a cycle that ends in CmdRefused, where no refusal was noted before, does not write OP. -/
theorem startCycle_op_of_refused {op : Op} {e : Engine} (hbefore : e.errkind = .none)
    (hafter : (startCycle op e).errkind = .cmdRefused) : (startCycle op e).op = e.op := by
  unfold startCycle at hafter ⊢
  split at hafter
  · exact absurd (hbefore.symm.trans hafter) (by decide)
  · rename_i hunbound
    rw [if_neg hunbound]
    exact raise_op _ e

/-- R120, R121: a command writes OP only where it is accepted and its own part writes OP. -/
theorem command_op {body : Engine → Engine} {s : State}
    (h : s.eng.run = false → (body (acceptPrologue s.eng)).op = s.eng.op) :
    (command body s).eng.op = s.eng.op := by
  cases hrun : s.eng.run with
  | true => rw [command_busy body hrun]
  | false => rw [command_accepted body hrun]; exact h hrun

/-- R100: INIT does not write OP. -/
theorem exec_init_op {bus : BusSel} {addr : BusAddr} {s t : State} (h : exec (.init bus addr) s = .next t) :
    t.eng.op = s.eng.op := by
  cases h
  exact command_op fun _ => bindHandle_op s.cfg bus addr _

/-- R100, R126: a command after which ERRKIND is CmdRefused did not write OP. -/
theorem exec_cmd_op_of_refused {i : Instr} {s t : State} (hi : isCmdRow i = true) (h : exec i s = .next t)
    (hrefused : t.eng.errkind = .cmdRefused) : t.eng.op = s.eng.op := by
  obtain ⟨body, hexec, hbody⟩ := exec_cmd_cases hi s
  rw [hexec] at h
  cases h
  refine command_op fun hrun => ?_
  rw [command_accepted body hrun] at hrefused
  obtain ⟨bus, addr, -, rfl⟩ | ⟨op, rfl⟩ | rfl := hbody
  · exact bindHandle_op s.cfg bus addr _
  · exact startCycle_op_of_refused (acceptPrologue_errkind s.eng) hrefused
  · exact raise_op .cmdRefused _

/-- Settles O38: the numbers are read off the tables; no OP is written by INIT, nor by what ends in CmdRefused. -/
theorem nameNumbers : Obligations.NameNumbers := by
  refine ⟨by decide, by decide, ?_, ?_, fun _ _ _ _ => exec_init_op, fun _ _ _ => exec_cmd_op_of_refused⟩
  · intro k
    cases k <;> decide
  · intro o
    cases o <;> decide

end Sys2Proof.Machine
end

section
/-! PROOFS. What a command does on acceptance, and the register writes (40_host_commands.md R120 to R122, R126,
R128). -/

namespace Sys2Proof.Machine

open Sys2Proof

/-- Settles O7: every CMD row is a `command`, which changes nothing while RUN = 1. -/
theorem commandIgnoredWhileBusy : Obligations.CommandIgnoredWhileBusy := by
  intro i s hcmd hrun
  obtain ⟨body, hexec, -⟩ := exec_cmd_cases hcmd s
  rw [hexec, command_busy body hrun]

/-- R122, R126: INIT's own part where a handle is bound. -/
theorem bindHandle_of_bound (cfg : Config) (bus : BusSel) (addr : BusAddr) {e : Engine} (h : e.bound = true) :
    bindHandle cfg bus addr e = raise .cmdRefused e := by
  simp [bindHandle, h]

/-- R122: INIT's own part where the bus is absent. -/
theorem bindHandle_of_absent {cfg : Config} {bus : BusSel} (addr : BusAddr) {e : Engine} (h : e.bound = false)
    (hbus : cfg.busPresent.contains bus = false) : bindHandle cfg bus addr e = raise .initError e := by
  simp only [bindHandle, h, hbus, Bool.false_eq_true, if_false]

/-- R122: INIT's own part where the bus is present. -/
theorem bindHandle_of_present {cfg : Config} {bus : BusSel} (addr : BusAddr) {e : Engine} (h : e.bound = false)
    (hbus : cfg.busPresent.contains bus = true) :
    bindHandle cfg bus addr e = { e with busref := bus, addr := addr, bound := true, done := true } := by
  simp only [bindHandle, h, hbus, Bool.false_eq_true, if_false, if_true]

/-- R126: an acquisition's own part where no handle is bound. -/
theorem startCycle_of_unbound (op : Op) {e : Engine} (h : e.bound = false) :
    startCycle op e = raise .cmdRefused e := by
  simp [startCycle, h]

/-- R120, R122: INIT while RUN = 0 binds the handle in the engine that the prologue left. -/
theorem exec_init_accepted (bus : BusSel) (addr : BusAddr) {s : State} (hrun : s.eng.run = false) :
    exec (.init bus addr) s = .next (s.setEng (bindHandle s.cfg bus addr (acceptPrologue s.eng))) :=
  congrArg _ (command_accepted (bindHandle s.cfg bus addr) hrun)

/-- Settles O8: the prologue leaves BOUND as it was, so each case is the one of `bindHandle`. -/
theorem initOutcomes : Obligations.InitOutcomes := by
  intro bus addr s hrun
  rw [exec_init_accepted bus addr hrun]
  refine ⟨fun hbound => ?_, fun hbound hbus => ?_, fun hbound hbus => ?_⟩
  · rw [bindHandle_of_bound s.cfg bus addr ((acceptPrologue_bound s.eng).trans hbound)]
    rfl
  · rw [bindHandle_of_absent addr ((acceptPrologue_bound s.eng).trans hbound) hbus]
    rfl
  · rw [bindHandle_of_present addr ((acceptPrologue_bound s.eng).trans hbound) hbus]
    rfl

/-- R126: an acquisition while RUN = 0 and no handle is bound is the prologue, then the refusal. -/
theorem command_startCycle_of_unbound (op : Op) {s : State} (hrun : s.eng.run = false) (h : s.eng.bound = false) :
    command (startCycle op) s = s.setEng (raise .cmdRefused (acceptPrologue s.eng)) := by
  rw [command_accepted (startCycle op) hrun, startCycle_of_unbound op ((acceptPrologue_bound s.eng).trans h)]

/-- R97: a reserved code's own part is the refusal. -/
theorem exec_reservedRow {i : Instr} (h : isReservedRow i = true) (s : State) :
    exec i s = .next (command (raise .cmdRefused) s) := by
  unfold isReservedRow at h
  split at h
  case h_1 | h_2 | h_3 | h_4 | h_5 | h_6 | h_7 | h_8 | h_9 | h_10 | h_11 | h_12 => rfl
  all_goals cases h

/-- R126: each of the three causes of a refusal ends in the prologue, then the refusal. -/
theorem exec_refused {i : Instr} {s : State} (hrun : s.eng.run = false)
    (hcause : isReservedRow i = true ∨ (s.eng.bound = true ∧ ∃ bus addr, i = .init bus addr) ∨
      (s.eng.bound = false ∧ (i = .acq ∨ i = .rdt ∨ i = .rdh))) :
    exec i s = .next (s.setEng (raise .cmdRefused (acceptPrologue s.eng))) := by
  obtain hreserved | ⟨hbound, bus, addr, rfl⟩ | ⟨hunbound, hacq⟩ := hcause
  · rw [exec_reservedRow hreserved, command_accepted _ hrun]
  · rw [exec_init_accepted bus addr hrun,
      bindHandle_of_bound s.cfg bus addr ((acceptPrologue_bound s.eng).trans hbound)]
  · obtain rfl | rfl | rfl := hacq
    · exact congrArg _ (command_startCycle_of_unbound .acq hrun hunbound)
    · exact congrArg _ (command_startCycle_of_unbound .rdt hrun hunbound)
    · exact congrArg _ (command_startCycle_of_unbound .rdh hrun hunbound)

/-- Settles O9: the next state of `exec_refused`, its registers written out. -/
theorem refusedCommands : Obligations.RefusedCommands :=
  fun _ _ => exec_refused

/-- R67: a word written at an aligned offset is a write of the register there. -/
theorem hostAccess_write_word {off : Nat} (h : off % 4 = 0) (v : Word) (s : State) :
    hostAccess (.write off .word v) s = .next (s.setEng (writeReg off v s.eng)) := by
  simp [hostAccess, alignedWord, h]

/-- R128: RETRY_LIMIT takes bits 15:0 while RUN = 0. -/
theorem writeReg_retryLimit (v : Word) {e : Engine} (h : e.run = false) :
    writeReg 0x0C v e = { e with retryLimit := v.extractLsb' 0 16 } :=
  if_pos ⟨rfl, h⟩

/-- R128: a write of another register than RETRY_LIMIT, or while RUN = 1, is ignored. -/
theorem writeReg_ignored {off : Nat} (v : Word) {e : Engine} (h : ¬(off = 0x0C ∧ e.run = false)) :
    writeReg off v e = e :=
  if_neg h

/-- Settles O42: RETRY_LIMIT by RUN, every other register of the map by its offset. -/
theorem registerWrites : Obligations.RegisterWrites := by
  intro v s
  refine ⟨fun hrun => ?_, fun hrun => ?_, fun off haligned _ _ hoff => ?_⟩
  · rw [hostAccess_write_word rfl, writeReg_retryLimit v hrun]
    rfl
  · rw [hostAccess_write_word rfl, writeReg_ignored v (by simp [hrun]), State.setEng_self]
  · rw [hostAccess_write_word haligned, writeReg_ignored v (fun h => hoff h.1), State.setEng_self]

end Sys2Proof.Machine
end

section
/-! PROOFS. The status check and the timeout step of the sequencer (41_sequencer.md R143, R145). -/

namespace Sys2Proof.Machine

open Sys2Proof

/-- R143: the status check of the frame that F holds writes STATE and nothing else. -/
theorem gateFrame_held {f : Frame} {e : Engine} (h : e.frame = some f) :
    gateFrame f e = { e with state := if parseStatus f.b0 = Config.statusValid then .ready else .notReady } := by
  simp only [gateFrame, ← h]

/-- R143: S_CHK where it is enabled and F holds a frame. -/
theorem exec_sChk_held {s : State} {f : Frame} (hen : enabled .reading s.eng = true) (h : s.eng.frame = some f) :
    exec .sChk s = .next (s.setEng (gateFrame f s.eng)) := by
  refine whenEnabled_next.mpr ⟨hen, ?_⟩
  rw [readFrame_held h]

/-- Settles O18: the frame checked is the one F holds, so only STATE is written. -/
theorem checkStep : Obligations.CheckStep := by
  intro s f hrun hstate hframe
  rw [exec_sChk_held (enabled_iff.mpr ⟨hrun, hstate⟩) hframe, gateFrame_held hframe]
  rfl

/-- R150: what Complete(failure) writes, VAL by whether the operation is ACQ. -/
theorem completeFailure_eq (e : Engine) :
    completeFailure e = { e with
      hum := none, temp := none
      val := if e.op = .acq then e.val else some lossySentinel
      err := true, run := false, done := true } := by
  unfold completeFailure
  cases e.op <;> rfl

/-- R145: S_TIMEOUT has a next state exactly where NotReady has reached the bound: the failure NotReadyTimeout. -/
theorem exec_sTimeout_next {s t : State} : exec .sTimeout s = .next t ↔
    (enabled .notReady s.eng && limitReached s.eng) = true ∧ s.setEng (raise .notReadyTimeout s.eng) = t :=
  whenEnabled_next

/-- Settles O20: LimitReached decides whether S_TIMEOUT exists, and its effect is the failure entry alone. -/
theorem timeoutStep : Obligations.TimeoutStep := by
  intro s hrun hstate
  constructor
  · intro hfinite hreached
    have hguard : (enabled .notReady s.eng && limitReached s.eng) = true :=
      Bool.and_eq_true_iff.mpr ⟨enabled_iff.mpr ⟨hrun, hstate⟩, limitReached_iff.mpr ⟨hfinite, hreached⟩⟩
    refine exec_sTimeout_next.mpr ⟨hguard, ?_⟩
    rw [raise, completeFailure_eq]
    rfl
  · intro hunbounded t hnext
    obtain ⟨hguard, -⟩ := exec_sTimeout_next.mp hnext
    obtain ⟨hfinite, -⟩ := limitReached_iff.mp (Bool.and_eq_true_iff.mp hguard).2
    exact hfinite hunbounded

end Sys2Proof.Machine
end

section
/-! PROOFS. The parser and the whole decode (42_decoder_scaler.md R172 to R174, R178). -/

namespace Sys2Proof.Machine

open Sys2Proof

/-- The status field is the byte divided by 64 (R172): two of its eight bits lie above the lower six. -/
theorem parseStatus_toNat (b0 : Byte) : (parseStatus b0).toNat = b0.toNat / 64 := by
  rw [parseStatus, BitVec.extractLsb'_toNat, Nat.shiftRight_eq_div_pow]
  omega

/-- F_STATUS delivers the status field and changes no register (R170, R172). -/
theorem exec_fStatus (b0 : Byte) (s : State) :
    exec (.fStatus b0) s = .next (s.deliver (.status (parseStatus b0))) := rfl

/-- Settles O23: the field delivered is `parseStatus`, whose value is known. -/
theorem statusField : Obligations.StatusField :=
  fun b0 s => ⟨exec_fStatus b0 s, parseStatus_toNat b0⟩

/-- Two fields side by side, as a number: the upper one counts in units of the lower one's range. -/
theorem toNat_append_eq_mul_add {m n : Nat} (x : BitVec m) (y : BitVec n) :
    (x ++ y).toNat = x.toNat * 2 ^ n + y.toNat := by
  rw [BitVec.toNat_append, ← Nat.shiftLeft_add_eq_or_of_lt y.isLt, Nat.shiftLeft_eq]

/-- The humidity code as a number (R173). -/
theorem parseHcode_toNat (b0 b1 : Byte) : (parseHcode b0 b1).toNat = (b0.toNat % 64) * 256 + b1.toNat := by
  rw [parseHcode, toNat_append_eq_mul_add, BitVec.extractLsb'_toNat, Nat.shiftRight_zero]
  rfl

/-- The second form of R173: the lower six bits of `b0` are what its mask keeps. -/
theorem parseHcode_setWidth (b0 b1 : Byte) : (parseHcode b0 b1).setWidth 16 =
    ((b0.setWidth 16 &&& 0x003F#16) <<< 8) ||| b1.setWidth 16 := by
  have hmask : ∀ i < 16, (0x003F#16).getLsbD i = decide (i < 6) := by decide
  have hlow : (b0.extractLsb' 0 6).setWidth 16 = b0.setWidth 16 &&& 0x003F#16 := by
    apply BitVec.eq_of_getLsbD_eq
    intro i hi
    simp [-BitVec.getLsbD_eq_getElem, hmask i hi, hi, Bool.and_comm]
  rw [parseHcode, BitVec.setWidth_append_eq_shiftLeft_setWidth_or, hlow]

/-- F_HCODE delivers the humidity code and changes no register (R170, R173). -/
theorem exec_fHcode (b0 b1 : Byte) (s : State) :
    exec (.fHcode b0 b1) s = .next (s.deliver (.code (parseHcode b0 b1))) := rfl

/-- Settles O24: the code delivered is `parseHcode`, whose masked form and value are known. -/
theorem humidityCode : Obligations.HumidityCode :=
  fun b0 b1 s =>
    ⟨parseHcode b0 b1, exec_fHcode b0 b1 s, rfl, parseHcode_setWidth b0 b1, parseHcode_toNat b0 b1⟩

/-- The temperature code as a number (R174). -/
theorem parseTcode_toNat (b2 b3 : Byte) : (parseTcode b2 b3).toNat = b2.toNat * 64 + b3.toNat / 4 := by
  have hhigh : (b3.extractLsb' 2 6).toNat = b3.toNat / 4 := by
    rw [BitVec.extractLsb'_toNat, Nat.shiftRight_eq_div_pow]
    omega
  rw [parseTcode, toNat_append_eq_mul_add, hhigh]
  rfl

/-- The second form of R174: the left shift of `b2` loses no bit at 16 bits, and the mask drops only the two bits of
`b3` that the right shift drops. -/
theorem parseTcode_setWidth (b2 b3 : Byte) : (parseTcode b2 b3).setWidth 16 =
    ((b2.setWidth 16 <<< 8) ||| (b3.setWidth 16 &&& 0x00FC#16)) >>> 2 := by
  have hhigh : (b2.setWidth 16 <<< 8) >>> 2 = b2.setWidth 16 <<< 6 := by
    bv_omega
  have hmask : ∀ i < 16, (0x00FC#16).getLsbD (2 + i) = decide (i < 6) := by decide
  have hlow : (b3.setWidth 16 &&& 0x00FC#16) >>> 2 = (b3.extractLsb' 2 6).setWidth 16 := by
    apply BitVec.eq_of_getLsbD_eq
    intro i hi
    by_cases h6 : i < 6
    · simp [-BitVec.getLsbD_eq_getElem, hmask i hi, hi, h6, show 2 + i < 16 by omega]
    · simp [-BitVec.getLsbD_eq_getElem, hmask i hi, h6]
  rw [parseTcode, BitVec.setWidth_append_eq_shiftLeft_setWidth_or, BitVec.ushiftRight_or_distrib, hhigh, hlow]

/-- F_TCODE delivers the temperature code and changes no register (R170, R174). -/
theorem exec_fTcode (b2 b3 : Byte) (s : State) :
    exec (.fTcode b2 b3) s = .next (s.deliver (.code (parseTcode b2 b3))) := rfl

/-- Settles O25: the code delivered is `parseTcode`, whose shifted form and value are known. -/
theorem temperatureCode : Obligations.TemperatureCode :=
  fun b2 b3 s =>
    ⟨parseTcode b2 b3, exec_fTcode b2 b3 s, rfl, parseTcode_setWidth b2 b3, parseTcode_toNat b2 b3⟩

/-- F_DECODE delivers both scaled codes and changes no register (R170, R178). -/
theorem exec_fDecode (b0 b1 b2 b3 : Byte) (s : State) :
    exec (.fDecode b0 b1 b2 b3) s = .next (s.deliver (.reading
      (scaleH s.cfg.fpEval (parseHcode b0 b1)) (scaleT s.cfg.fpEval (parseTcode b2 b3)))) := rfl

/-- The status bits of byte 0 do not reach the humidity code (R173). -/
theorem parseHcode_congr {b0 c0 : Byte} (h : c0.extractLsb' 0 6 = b0.extractLsb' 0 6) (b1 : Byte) :
    parseHcode c0 b1 = parseHcode b0 b1 := by
  rw [parseHcode, parseHcode, h]

/-- Bits 1:0 of byte 3 do not reach the temperature code (R174). -/
theorem parseTcode_congr {b3 c3 : Byte} (h : c3.extractLsb' 2 6 = b3.extractLsb' 2 6) (b2 : Byte) :
    parseTcode b2 c3 = parseTcode b2 b3 := by
  rw [parseTcode, parseTcode, h]

/-- Settles O26: the reading is a function of the two codes, which the ignored bits do not reach. -/
theorem wholeDecode : Obligations.WholeDecode := by
  intro b0 b1 b2 b3 s
  refine ⟨exec_fDecode b0 b1 b2 b3 s, fun c0 c3 h0 h3 => ?_⟩
  rw [exec_fDecode, exec_fDecode, parseHcode_congr h0, parseTcode_congr h3]

end Sys2Proof.Machine
end

section
/-! PROOFS. What a host turn leaves unchanged, and that it cannot disturb a running cycle (40_host_commands.md R121,
R128, 41_sequencer.md R155). -/

namespace Sys2Proof.Machine

open Sys2Proof

/-- What every host access keeps of the state `u` in which its engine is in focus: the focus, the parked engines and
the history, and the registers in focus while their cycle runs. -/
structure HostKeeps (u t : State) : Prop where
  inst : t.inst = u.inst
  parked : t.parked = u.parked
  history : t.history = u.history
  eng_of_run : u.eng.run = true → t.eng = u.eng

/-- A command writes registers of the engine in focus alone, and none while RUN = 1 (R120, R121). -/
theorem command_keeps (body : Engine → Engine) (u : State) : HostKeeps u (command body u) := by
  cases hrun : u.eng.run with
  | true => rw [command_busy body hrun]; exact ⟨rfl, rfl, rfl, fun _ => rfl⟩
  | false => rw [command_accepted body hrun]; exact ⟨rfl, rfl, rfl, fun h => absurd (hrun.symm.trans h) (by decide)⟩

/-- A register access while RUN = 1 changes no register: a read never does, and RETRY_LIMIT is then read-only (R128). -/
theorem hostAccess_eng_of_run {a : HostAccess} {u t : State} (h : hostAccess a u = .next t) (hrun : u.eng.run = true) :
    t.eng = u.eng := by
  cases a with
  | read off size =>
    simp only [hostAccess] at h
    split at h
    · cases h
      obtain ⟨w, d, hread, -⟩ := deliverRead_spec (readReg u.eng off) u
      rw [hread]
    · cases h
  | write off size v =>
    simp only [hostAccess] at h
    split at h
    · cases h
      exact writeReg_ignored v (by simp [hrun])
    · cases h

/-- A register access keeps what a host access keeps. -/
theorem hostAccess_keeps {a : HostAccess} {u t : State} (h : hostAccess a u = .next t) : HostKeeps u t := by
  obtain ⟨-, hinst, hparked, -, -, hhistory, -, -⟩ := hostAccess_cases h
  exact ⟨hinst, hparked, hhistory, hostAccess_eng_of_run h⟩

/-- The CMD port yields rows of its own alone (R95, R96). -/
theorem isCmdRow_decodeCmd (w : Word) : isCmdRow (decodeCmd w) = true := by
  unfold decodeCmd
  split <;> rfl

/-- R40: on the host's turn, a word written to CMD is run as the command it decodes to. -/
theorem step_host_command {s u : State} {j : Nat} {w : Word} {ts : List Turn}
    (hturn : s.turns = .host j (.write 0 .word w) :: ts) (hu : focus j { s with turns := ts } = some u) :
    step s = exec (decodeCmd w) u := by
  simp only [step, fetch_turn hturn hu, fetchTurn, fetchHost, fetchWord, decode_cmd]

/-- R40: on the host's turn, every other access is the register access. -/
theorem step_host_access {s u : State} {j : Nat} {a : HostAccess} {ts : List Turn}
    (hturn : s.turns = .host j a :: ts) (hu : focus j { s with turns := ts } = some u)
    (ha : ∀ w, a ≠ .write 0 .word w) : step s = hostAccess a u := by
  simp only [step, fetch_turn hturn hu, fetchTurn, fetchHost_access u ha]

/-- The engine that a turn is about exists where the turn answers a next state. -/
theorem focus_of_step_next {s t : State} {turn : Turn} {ts : List Turn} (hturn : s.turns = turn :: ts)
    (hstep : step s = .next t) : ∃ u, focus turn.target { s with turns := ts } = some u := by
  obtain ⟨u, hu, -⟩ := step_cases hstep
  rw [mover, hturn] at hu
  exact ⟨u, hu⟩

/-- A host turn brings its engine into focus and there keeps what a host access keeps: it is a command or a register
access. -/
theorem step_host_keeps {s t : State} {j : Nat} {a : HostAccess} {ts : List Turn} (hturn : s.turns = .host j a :: ts)
    (hstep : step s = .next t) : ∃ u, focus j { s with turns := ts } = some u ∧ HostKeeps u t := by
  obtain ⟨u, hu⟩ := focus_of_step_next hturn hstep
  refine ⟨u, hu, ?_⟩
  by_cases hcmd : ∃ w, a = .write 0 .word w
  · obtain ⟨w, rfl⟩ := hcmd
    obtain ⟨body, hexec, -⟩ := exec_cmd_cases (isCmdRow_decodeCmd w) u
    rw [step_host_command hturn hu, hexec] at hstep
    cases hstep
    exact command_keeps body u
  · rw [step_host_access hturn hu (not_exists.1 hcmd)] at hstep
    exact hostAccess_keeps hstep

/-- What a host access keeps, seen from any engine: one whose cycle runs has the same registers after it, the one in
focus because RUN = 1, a parked one because the access does not reach it. -/
theorem HostKeeps.engineOf_of_run {u t : State} (h : HostKeeps u t) {k : Nat} {e : Engine}
    (he : engineOf u k = some e) (hrun : e.run = true) : engineOf t k = some e := by
  rw [← he]
  unfold engineOf at he ⊢
  rw [h.inst, h.parked]
  split
  · rename_i hk
    rw [if_pos hk] at he
    cases he
    rw [h.eng_of_run hrun]
  · rfl

/-- Settles O54: bringing the access's engine into focus changes no registers and no history, and the access keeps
the registers of a running engine. -/
theorem hostCannotDisturbCycle : Obligations.HostCannotDisturbCycle := by
  intro s t j k a ts e hturn he hrun hstep
  obtain ⟨u, hu, hkeeps⟩ := step_host_keeps hturn hstep
  obtain ⟨-, -, hengines, -, -, -, -, -, hhistory, -⟩ := focus_spec hu
  exact ⟨hkeeps.engineOf_of_run ((hengines k).trans he) hrun, hkeeps.history.trans hhistory⟩

end Sys2Proof.Machine
end

section
/-! PROOFS. The round trips between words and operations, and the classes of frames (30_encoding.md R90 to R98,
R108). -/

namespace Sys2Proof.Machine

open Sys2Proof

/-! ### Words that fit their port -/

/-- R90: the encoding of an operation has no bit above the width of its port. -/
theorem encode_fits (i : Instr) : (encode i).toNat < 2 ^ (portOf i).width := by
  open Laws.EncodingFits in
  exact match i with
  | .init bus addr => init bus addr
  | .acq => acq | .rdt => rdt | .rdh => rdh
  | .reservedCmd0 => reservedCmd0 | .reservedCmd5 => reservedCmd5 | .reservedCmd6 => reservedCmd6
  | .reservedCmd7 => reservedCmd7 | .reservedCmd8 => reservedCmd8 | .reservedCmd9 => reservedCmd9
  | .reservedCmdA => reservedCmdA | .reservedCmdB => reservedCmdB | .reservedCmdC => reservedCmdC
  | .reservedCmdD => reservedCmdD | .reservedCmdE => reservedCmdE | .reservedCmdF => reservedCmdF
  | .trigger a => trigger a | .read4 a => read4 a
  | .frameValid f => frameValid f | .frameNotready01 f => frameNotready01 f
  | .frameNotready10 f => frameNotready10 f | .frameNotready11 f => frameNotready11 f
  | .sTrig => sTrig | .sRead => sRead | .sChk => sChk | .sRetry => sRetry | .sTimeout => sTimeout | .sDec => sDec
  | .fStatus b0 => fStatus b0 | .fHcode b0 b1 => fHcode b0 b1 | .fTcode b2 b3 => fTcode b2 b3
  | .fScaleh hc => fScaleh hc | .fScalet tc => fScalet tc | .fDecode b0 b1 b2 b3 => fDecode b0 b1 b2 b3

/-- R90: a word that a port decodes fits the port. -/
theorem fits_of_decode {p : Port} {w : Word} {i : Instr} (h : decode p w = .ok i) : w.toNat < 2 ^ p.width := by
  by_contra hwide
  have htooWide : decode p w = .error .tooWide := if_pos (not_lt.mp hwide)
  cases htooWide.symm.trans h

/-- Every word is a frame (R92, R108), since the FRAME port is 32 bits wide. -/
theorem decode_frame (w : Word) : decode .frame w = .ok (decodeFrame (frameOfWord w)) :=
  if_neg (not_le.mpr w.isLt)

/-- R94: a byte on the bus port is an address and a direction. -/
theorem decode_bus {w : Word} (h : w.toNat < 2 ^ 8) : decode .bus w = .ok (decodeBus w) :=
  if_neg (not_le.mpr h)

/-- R172: the byte of F_STATUS. -/
theorem decode_fStatus {w : Word} (h : w.toNat < 2 ^ 8) : decode .fStatus w = .ok (.fStatus (w.extractLsb' 0 8)) :=
  if_neg (not_le.mpr h)

/-- R173: the two bytes of F_HCODE. -/
theorem decode_fHcode {w : Word} (h : w.toNat < 2 ^ 16) :
    decode .fHcode w = .ok (.fHcode (w.extractLsb' 8 8) (w.extractLsb' 0 8)) :=
  if_neg (not_le.mpr h)

/-- R174: the two bytes of F_TCODE. -/
theorem decode_fTcode {w : Word} (h : w.toNat < 2 ^ 16) :
    decode .fTcode w = .ok (.fTcode (w.extractLsb' 8 8) (w.extractLsb' 0 8)) :=
  if_neg (not_le.mpr h)

/-- R177: the code of F_SCALEH. -/
theorem decode_fScaleh {w : Word} (h : w.toNat < 2 ^ 14) : decode .fScaleh w = .ok (.fScaleh (w.extractLsb' 0 14)) :=
  if_neg (not_le.mpr h)

/-- R179: the code of F_SCALET. -/
theorem decode_fScalet {w : Word} (h : w.toNat < 2 ^ 14) : decode .fScalet w = .ok (.fScalet (w.extractLsb' 0 14)) :=
  if_neg (not_le.mpr h)

/-- R178: the four bytes of F_DECODE. -/
theorem decode_fDecode (w : Word) : decode .fDecode w =
    .ok (.fDecode (w.extractLsb' 24 8) (w.extractLsb' 16 8) (w.extractLsb' 8 8) (w.extractLsb' 0 8)) :=
  if_neg (not_le.mpr w.isLt)

/-! ### Frames by their status -/

/-- R92: a frame of status 00. -/
theorem decodeFrame_of_status00 {f : Frame} (h : frameStatus f = 0b00#2) : decodeFrame f = .frameValid f := by
  rw [decodeFrame, h]
  rfl

/-- R92: a frame of status 01. -/
theorem decodeFrame_of_status01 {f : Frame} (h : frameStatus f = 0b01#2) : decodeFrame f = .frameNotready01 f := by
  rw [decodeFrame, h]
  rfl

/-- R92: a frame of status 10. -/
theorem decodeFrame_of_status10 {f : Frame} (h : frameStatus f = 0b10#2) : decodeFrame f = .frameNotready10 f := by
  rw [decodeFrame, h]
  rfl

/-- R92: a frame of status 11. -/
theorem decodeFrame_of_status11 {f : Frame} (h : frameStatus f = 0b11#2) : decodeFrame f = .frameNotready11 f := by
  rw [decodeFrame, h]
  rfl

/-- The word of a frame is decoded by the frame's status. -/
theorem decode_frame_frameWord (f : Frame) : decode .frame (frameWord f) = .ok (decodeFrame f) := by
  rw [decode_frame, frameOfWord_frameWord]

/-- The word of a frame row is the word of its frame. -/
theorem encode_decodeFrame (f : Frame) : encode (decodeFrame f) = frameWord f := by
  unfold decodeFrame
  split <;> rfl

/-- A frame row arrives on the FRAME port. -/
theorem portOf_decodeFrame (f : Frame) : portOf (decodeFrame f) = .frame := by
  unfold decodeFrame
  split <;> rfl

/-- Settles O4: the word of a frame gives the frame back, and its class is the row of its status. -/
theorem frameClassification : Obligations.FrameClassification := by
  intro f
  rw [decode_frame_frameWord]
  exact ⟨fun h => congrArg _ (decodeFrame_of_status00 h), fun h => congrArg _ (decodeFrame_of_status01 h),
    fun h => congrArg _ (decodeFrame_of_status10 h), fun h => congrArg _ (decodeFrame_of_status11 h)⟩

/-- Settles O6: each word is a literal, so the decoder is evaluated on it. -/
theorem writtenOutWords : Obligations.WrittenOutWords := by
  refine ⟨?_, ?_, ?_, ?_, ?_, ?_, ?_, ?_, ?_⟩ <;> decide

/-! ### From an operation to its word and back -/

/-- R94: the address and the direction of a trigger's byte. -/
theorem decodeBus_trigger (a : BusAddr) : decodeBus (encode (.trigger a)) = .trigger a := by
  have hdir : (place a 1).getLsbD 0 = false := by simp [-BitVec.getLsbD_eq_getElem]
  simp [-BitVec.getLsbD_eq_getElem, decodeBus, encode, hdir, extractLsb'_place_same]

/-- R94: the address and the direction of a read's byte. -/
theorem decodeBus_read4 (a : BusAddr) : decodeBus (encode (.read4 a)) = .read4 a := by
  have hdir : (place a 1 ||| 1#32).getLsbD 0 = true := by simp [-BitVec.getLsbD_eq_getElem]
  have haddr : (1#32).extractLsb' 1 7 = 0#7 := by decide
  simp only [decodeBus, encode, hdir, if_true, BitVec.extractLsb'_or, haddr,
    extractLsb'_place_same a (lo := 1) (by decide), BitVec.or_zero]

/-- R95: OPC and the arguments of INIT's word. -/
theorem decodeCmd_init (bus : BusSel) (addr : BusAddr) : decodeCmd (encode (.init bus addr)) = .init bus addr := by
  have hopc : (encode (.init bus addr)).extractLsb' 0 4 = 1#4 := by
    simp [encode, BitVec.extractLsb'_or, extractLsb'_place_disjoint]
  have hbus : (encode (.init bus addr)).extractLsb' 16 8 = bus := by
    simp [encode, BitVec.extractLsb'_or, extractLsb'_place_same, extractLsb'_place_disjoint]
  have haddr : (encode (.init bus addr)).extractLsb' 8 7 = addr := by
    simp [encode, BitVec.extractLsb'_or, extractLsb'_place_same, extractLsb'_place_disjoint]
  rw [decodeCmd, hopc, hbus, haddr]
  rfl

/-- Two bytes in a word, read back. -/
theorem extractLsb'_place_bytes (hi lo : Byte) :
    (place hi 8 ||| place lo 0).extractLsb' 8 8 = hi ∧ (place hi 8 ||| place lo 0).extractLsb' 0 8 = lo := by
  simp [BitVec.extractLsb'_or, extractLsb'_place_same, extractLsb'_place_disjoint]

/-- R92: a well-formed frame row is the class of the frame that it carries. -/
theorem decode_frame_encode {i : Instr} {f : Frame} (hword : encode i = frameWord f) (hclass : decodeFrame f = i) :
    decode .frame (encode i) = .ok i := by
  rw [hword, decode_frame_frameWord, hclass]

/-- Settles O1: by the rows of the table, each field of an encoding being read back from its place. -/
theorem decodeOfEncode : Obligations.DecodeOfEncode := by
  intro i hwf
  have hfits := encode_fits i
  cases i with
  | init bus addr => exact (decode_cmd _).trans (congrArg _ (decodeCmd_init bus addr))
  | acq | rdt | rdh
  | reservedCmd0 | reservedCmd5 | reservedCmd6 | reservedCmd7 | reservedCmd8 | reservedCmd9
  | reservedCmdA | reservedCmdB | reservedCmdC | reservedCmdD | reservedCmdE | reservedCmdF
  | sTrig | sRead | sChk | sRetry | sTimeout | sDec => rfl
  | trigger a => exact (decode_bus hfits).trans (congrArg _ (decodeBus_trigger a))
  | read4 a => exact (decode_bus hfits).trans (congrArg _ (decodeBus_read4 a))
  | frameValid f => exact decode_frame_encode rfl (decodeFrame_of_status00 (eq_of_beq hwf))
  | frameNotready01 f => exact decode_frame_encode rfl (decodeFrame_of_status01 (eq_of_beq hwf))
  | frameNotready10 f => exact decode_frame_encode rfl (decodeFrame_of_status10 (eq_of_beq hwf))
  | frameNotready11 f => exact decode_frame_encode rfl (decodeFrame_of_status11 (eq_of_beq hwf))
  | fStatus b0 =>
    refine (decode_fStatus hfits).trans ?_
    rw [encode, extractLsb'_place_same b0 (by decide)]
  | fHcode b0 b1 =>
    refine (decode_fHcode hfits).trans ?_
    obtain ⟨hhi, hlo⟩ := extractLsb'_place_bytes b0 b1
    rw [encode, hhi, hlo]
  | fTcode b2 b3 =>
    refine (decode_fTcode hfits).trans ?_
    obtain ⟨hhi, hlo⟩ := extractLsb'_place_bytes b2 b3
    rw [encode, hhi, hlo]
  | fScaleh hc =>
    refine (decode_fScaleh hfits).trans ?_
    rw [encode, extractLsb'_place_same hc (by decide)]
  | fScalet tc =>
    refine (decode_fScalet hfits).trans ?_
    rw [encode, extractLsb'_place_same tc (by decide)]
  | fDecode b0 b1 b2 b3 =>
    obtain ⟨h0, h1, h2, h3⟩ := Frame.mk.inj (frameOfWord_frameWord { b0 := b0, b1 := b1, b2 := b2, b3 := b3 })
    refine (decode_fDecode _).trans ?_
    rw [show encode (.fDecode b0 b1 b2 b3) = frameWord { b0 := b0, b1 := b1, b2 := b2, b3 := b3 } from rfl,
      h0, h1, h2, h3]

/-! ### From a word to its operation and back -/

/-- The bits of a field put back in its place. -/
theorem place_extractLsb'_getLsbD (w : Word) (lo n i : Nat) :
    (place (w.extractLsb' lo n) lo).getLsbD i = (decide (lo ≤ i ∧ i < lo + n) && w.getLsbD i) := by
  rw [place_getLsbD, BitVec.getLsbD_extractLsb']
  by_cases hlo : lo ≤ i
  · by_cases h32 : i < 32
    · simp [-BitVec.getLsbD_eq_getElem, hlo, h32, show lo + (i - lo) = i by omega,
        show i - lo < n ↔ i < lo + n by omega]
    · simp [h32, BitVec.getLsbD_of_ge w i (not_lt.mp h32)]
  · simp [hlo]

/-- Two neighbouring fields put back in their places are one field put back in its place. -/
theorem place_extractLsb'_append (w : Word) (lo n m : Nat) :
    place (w.extractLsb' (lo + n) m) (lo + n) ||| place (w.extractLsb' lo n) lo =
      place (w.extractLsb' lo (n + m)) lo := by
  apply BitVec.eq_of_getLsbD_eq
  intro i _
  rw [BitVec.getLsbD_or]
  simp only [place_extractLsb'_getLsbD, ← Bool.and_or_distrib_right, ← Bool.decide_or]
  congr 2
  simp only [eq_iff_iff]
  omega

/-- The low bits of a word that has no others, put back in their place. -/
theorem place_extractLsb'_of_fits {w : Word} {n : Nat} (h : w.toNat < 2 ^ n) : place (w.extractLsb' 0 n) 0 = w := by
  apply BitVec.eq_of_getLsbD_eq
  intro i _
  rw [place_extractLsb'_getLsbD]
  by_cases hi : i < n
  · simp [hi]
  · have hbit : w.getLsbD i = false :=
      Nat.testBit_lt_two_pow (h.trans_le (Nat.pow_le_pow_right (by decide) (not_lt.mp hi)))
    simp [-BitVec.getLsbD_eq_getElem, hbit]

/-- Two bytes put back in their places. -/
theorem place_bytes_of_fits {w : Word} (h : w.toNat < 2 ^ 16) :
    place (w.extractLsb' 8 8) 8 ||| place (w.extractLsb' 0 8) 0 = w :=
  (place_extractLsb'_append w 0 8 8).trans (place_extractLsb'_of_fits h)

/-- R65: the frame of a word has that word. -/
theorem frameWord_frameOfWord (w : Word) : frameWord (frameOfWord w) = w := by
  calc frameWord (frameOfWord w)
      = place (w.extractLsb' 16 16) 16 ||| place (w.extractLsb' 8 8) 8 ||| place (w.extractLsb' 0 8) 0 :=
        congrArg (· ||| _ ||| _) (place_extractLsb'_append w 16 8 8)
    _ = place (w.extractLsb' 8 24) 8 ||| place (w.extractLsb' 0 8) 0 :=
        congrArg (· ||| _) (place_extractLsb'_append w 8 8 16)
    _ = place (w.extractLsb' 0 32) 0 := place_extractLsb'_append w 0 8 24
    _ = w := place_extractLsb'_of_fits w.isLt

/-- R94: an address byte is its address and its direction bit. -/
theorem encode_decodeBus {w : Word} (h : w.toNat < 2 ^ 8) : encode (decodeBus w) = w := by
  have hsplit : place (w.extractLsb' 1 7) 1 ||| place (w.extractLsb' 0 1) 0 = w :=
    (place_extractLsb'_append w 0 1 7).trans (place_extractLsb'_of_fits h)
  have hdir : place (w.extractLsb' 0 1) 0 = if w.getLsbD 0 then 1#32 else 0#32 := by
    have hbit : w.extractLsb' 0 1 = BitVec.ofBool (w.getLsbD 0) := by
      apply BitVec.eq_of_getLsbD_eq
      intro i hi
      obtain rfl : i = 0 := by omega
      simp
    rw [hbit]
    cases w.getLsbD 0 <;> rfl
  conv => rhs; rw [← hsplit, hdir]
  unfold decodeBus
  split
  · rfl
  · exact BitVec.or_zero.symm

/-- R98: a SEQ word that selects a step is the word of that step. -/
theorem encode_of_decode_seq {b : Bool} {w : Word} {i : Instr} (h : decode (.seq b) w = .ok i) :
    encode i = w ∧ ∃ c, portOf i = .seq c := by
  have hle := decode_seq_ok_le h
  obtain hw | hw | hw | hw | hw : w = 0#32 ∨ w = 1#32 ∨ w = 2#32 ∨ w = 3#32 ∨ w = 4#32 := by bv_omega
  all_goals
    subst hw
    cases b <;> cases h <;> exact ⟨rfl, _, rfl⟩

/-- Settles O2: by the ports, the fields of a word being put back in their places. -/
theorem encodeOfDecode : Obligations.EncodeOfDecode := by
  intro p w i hp h
  suffices hback : encode i = w ∧ (portOf i = p ∨ ∃ b c, portOf i = .seq b ∧ p = .seq c) by
    obtain ⟨hword, hport⟩ := hback
    exact ⟨hword, decode_wellFormed h, hport⟩
  have hfits := fits_of_decode h
  cases p with
  | cmd => exact absurd rfl hp
  | bus =>
    rw [decode_bus hfits] at h; cases h
    refine ⟨encode_decodeBus hfits, .inl ?_⟩
    unfold decodeBus; split <;> rfl
  | frame =>
    rw [decode_frame] at h; cases h
    exact ⟨(encode_decodeFrame _).trans (frameWord_frameOfWord w), .inl (portOf_decodeFrame _)⟩
  | seq b =>
    obtain ⟨hword, c, hport⟩ := encode_of_decode_seq h
    exact ⟨hword, .inr ⟨c, b, hport, rfl⟩⟩
  | fStatus => rw [decode_fStatus hfits] at h; cases h; exact ⟨place_extractLsb'_of_fits hfits, .inl rfl⟩
  | fHcode => rw [decode_fHcode hfits] at h; cases h; exact ⟨place_bytes_of_fits hfits, .inl rfl⟩
  | fTcode => rw [decode_fTcode hfits] at h; cases h; exact ⟨place_bytes_of_fits hfits, .inl rfl⟩
  | fScaleh => rw [decode_fScaleh hfits] at h; cases h; exact ⟨place_extractLsb'_of_fits hfits, .inl rfl⟩
  | fScalet => rw [decode_fScalet hfits] at h; cases h; exact ⟨place_extractLsb'_of_fits hfits, .inl rfl⟩
  | fDecode => rw [decode_fDecode] at h; cases h; exact ⟨frameWord_frameOfWord w, .inl rfl⟩

end Sys2Proof.Machine
end

section
/-! PROOFS. Every step keeps the invariant (10_state.md R46): each way of changing an engine's registers keeps the
engine's own invariant, and a step leaves the list of engines a permutation of what it was. -/

namespace Sys2Proof.Machine

open Sys2Proof

/-! ### One engine -/

/-- R45: the reset registers meet the invariant. -/
theorem engineInv_reset : EngineInv Engine.reset := by
  constructor <;> simp [Engine.reset, SeqState.terminal]

/-- What the invariant says of an engine whose cycle runs: no flag is set, and no result or failure is held. -/
theorem EngineInv.of_run {e : Engine} (h : EngineInv e) (hrun : e.run = true) :
    e.bound = true ∧ e.done = false ∧ e.err = false ∧ e.valid = false ∧ e.errkind = .none ∧ e.buserr = 0#8 ∧
      e.hum = none ∧ e.temp = none ∧ e.val = none := by
  obtain ⟨hbound, hdone, herr, hvalid, -⟩ := h.running hrun
  have hkind := h.noKindBeforeDone hdone
  have hhum := h.humIff
  have htemp := h.tempIff
  have hval := h.valIff
  rw [hvalid, Option.isSome_eq_false_iff, Option.isNone_iff_eq_none] at hhum htemp
  rw [hrun, Bool.not_true, Bool.false_and, Bool.false_and, Option.isSome_eq_false_iff,
    Option.isNone_iff_eq_none] at hval
  exact ⟨hbound, hdone, herr, hvalid, hkind, h.buserrZero (by simp [hkind]), hhum, htemp, hval⟩

/-- R201, R206: a command that ends at once leaves an engine at rest, its failure noted. -/
theorem engineInv_raise_acceptPrologue {f : Failure} (hf : f = .initError ∨ f = .cmdRefused) {e : Engine}
    (hrun : e.run = false) : EngineInv (raise f (acceptPrologue e)) := by
  obtain rfl | rfl := hf <;>
    constructor <;> simp [raise, acceptPrologue, hrun, SeqState.terminal]

/-- R122: INIT's own part after the prologue. -/
theorem engineInv_bindHandle (cfg : Config) (bus : BusSel) (addr : BusAddr) {e : Engine} (hrun : e.run = false) :
    EngineInv (bindHandle cfg bus addr (acceptPrologue e)) := by
  unfold bindHandle
  split
  · exact engineInv_raise_acceptPrologue (.inr rfl) hrun
  · split
    · constructor <;> simp [acceptPrologue, hrun, SeqState.terminal]
    · exact engineInv_raise_acceptPrologue (.inl rfl) hrun

/-- R123 to R125: an acquisition's own part after the prologue. -/
theorem engineInv_startCycle (op : Op) {e : Engine} (hrun : e.run = false) :
    EngineInv (startCycle op (acceptPrologue e)) := by
  unfold startCycle
  split
  · rename_i hbound
    rw [acceptPrologue_bound] at hbound
    constructor <;> simp [acceptPrologue, hbound, SeqState.inCycle]
  · exact engineInv_raise_acceptPrologue (.inr rfl) hrun

/-- R206: a transport failure of an engine that holds no result. -/
theorem engineInv_raise_transportError {e : Engine} (hvalid : e.valid = false) (hval : e.val = none) (c : BusErr) :
    EngineInv (raise (.transportError c) e) := by
  rw [raise, completeFailure_eq]
  constructor <;> simp [hvalid, hval, SeqState.terminal]
  split <;> simp_all

/-- R206: the timeout of an engine that holds no result. -/
theorem engineInv_raise_notReadyTimeout {e : Engine} (hvalid : e.valid = false) (hval : e.val = none)
    (hbuserr : e.buserr = 0#8) : EngineInv (raise .notReadyTimeout e) := by
  rw [raise, completeFailure_eq]
  constructor <;> simp [hvalid, hval, hbuserr, SeqState.terminal]
  split <;> simp_all

/-- R140, R24: a running cycle that goes on to another state of the cycle keeps the invariant where the new state's
own clauses hold. -/
theorem EngineInv.moveTo {e : Engine} (h : EngineInv e) (hrun : e.run = true) (st : SeqState) (cnt : BitVec 16)
    (fr : Option Frame) (hst : st.inCycle = true)
    (hbound : e.retryLimit ≠ Config.retryUnbounded → cnt.toNat ≤ e.retryLimit.toNat)
    (hfresh : st = .idle ∨ st = .triggered → cnt = 0#16)
    (hheld : st = .reading ∨ st = .notReady ∨ st = .ready → fr.isSome = true)
    (hready : st = .ready → ∀ f, fr = some f → parseStatus f.b0 = Config.statusValid)
    (hnot : st = .notReady → ∀ f, fr = some f → parseStatus f.b0 ≠ Config.statusValid) :
    EngineInv { e with state := st, retryCnt := cnt, frame := fr } := by
  obtain ⟨hb, hdone, herr, hvalid, hkind, hbuserr, hhum, htemp, hval⟩ := h.of_run hrun
  constructor <;> simp_all
  all_goals intro hterm; subst hterm; simp [SeqState.inCycle] at hst

/-- R141: S_TRIG keeps the invariant. -/
theorem EngineInv.afterTrigger {e : Engine} (h : EngineInv e) (hrun : e.run = true) (hst : e.state = .idle)
    (r : TrigAnswer) : EngineInv (afterTrigger r e) := by
  cases r with
  | ok =>
    exact h.moveTo hrun .triggered e.retryCnt e.frame rfl (h.retryBound hrun) (fun _ => h.freshCount hrun (.inl hst))
      (by simp) (by simp) (by simp)
  | err c =>
    obtain ⟨-, -, -, hvalid, -, -, -, -, hval⟩ := h.of_run hrun
    exact engineInv_raise_transportError hvalid hval c

/-- R142, R144: the answer of a read, given with the count that the step has written before it. -/
theorem EngineInv.afterRead {e : Engine} (h : EngineInv e) (hrun : e.run = true) (r : ReadAnswer) (cnt : BitVec 16)
    (hbound : e.retryLimit ≠ Config.retryUnbounded → cnt.toNat ≤ e.retryLimit.toNat) :
    EngineInv (afterRead r { e with retryCnt := cnt }) := by
  cases r with
  | ok f => exact h.moveTo hrun .reading cnt (some f) rfl hbound (by simp) (by simp) (by simp) (by simp)
  | err c =>
    obtain ⟨-, -, -, hvalid, -, -, -, -, hval⟩ := h.of_run hrun
    exact engineInv_raise_transportError (e := { e with retryCnt := cnt }) hvalid hval c

/-- R143: the status check keeps the invariant. -/
theorem EngineInv.gateFrame {e : Engine} (h : EngineInv e) (hrun : e.run = true) (f : Frame) :
    EngineInv (gateFrame f e) := by
  unfold Machine.gateFrame
  split
  · rename_i hvalid
    exact h.moveTo hrun .ready e.retryCnt (some f) rfl (h.retryBound hrun) (by simp) (by simp)
      (by simp [hvalid]) (by simp)
  · rename_i hinvalid
    exact h.moveTo hrun .notReady e.retryCnt (some f) rfl (h.retryBound hrun) (by simp) (by simp) (by simp)
      (by simp [hinvalid])

/-- R144, R148: where the limit is not reached, the next count is within it. -/
theorem retryCntNext_le_of_not_limitReached {e : Engine} (h : limitReached e = false)
    (hfinite : e.retryLimit ≠ Config.retryUnbounded) : (retryCntNext e.retryCnt).toNat ≤ e.retryLimit.toNat := by
  have hlt := (limitReached_false_iff.mp h).resolve_left hfinite
  rw [retryCntNext_toNat]
  omega

/-- R147, R150: the decode step of a running cycle. -/
theorem EngineInv.decodeFrameRegs {e : Engine} (h : EngineInv e) (hrun : e.run = true) (ev : FpEval) (f g : Frame) :
    EngineInv (decodeFrameRegs ev f { e with frame := some g }) := by
  obtain ⟨-, -, herr, -, hkind, hbuserr, -, -, hval⟩ := h.of_run hrun
  unfold Machine.decodeFrameRegs completeSuccess
  constructor <;> simp [herr, hkind, hbuserr, SeqState.terminal]
  cases e.op <;> simp [hval]

/-- R128: the invariant of an engine at rest does not speak of RETRY_LIMIT. -/
theorem EngineInv.setLimit {e : Engine} (h : EngineInv e) (hrun : e.run = false) (v : BitVec 16) :
    EngineInv { e with retryLimit := v } :=
  { h with retryBound := fun hr => absurd (hrun.symm.trans hr) (by decide) }

/-- R46: every way of changing an engine's registers keeps its invariant. -/
theorem EngineInv.step {cfg : Config} {e e' : Engine} (h : EngineInv e) (hstep : EngineStep cfg e e') :
    EngineInv e' := by
  cases hstep with
  | same => exact h
  | accepted body hrun hbody =>
    obtain ⟨bus, addr, rfl⟩ | ⟨op, rfl⟩ | rfl := hbody
    · exact engineInv_bindHandle cfg bus addr hrun
    · exact engineInv_startCycle op hrun
    · exact engineInv_raise_acceptPrologue (.inr rfl) hrun
  | trig r hrun hst => exact h.afterTrigger hrun hst r
  | read r hrun _ => exact h.afterRead hrun r e.retryCnt (h.retryBound hrun)
  | gate f hrun _ => exact h.gateFrame hrun f
  | retry r hrun _ hlim => exact h.afterRead hrun r _ (retryCntNext_le_of_not_limitReached hlim)
  | timeout hrun _ _ =>
    obtain ⟨-, -, -, hvalid, -, hbuserr, -, -, hval⟩ := h.of_run hrun
    exact engineInv_raise_notReadyTimeout hvalid hval hbuserr
  | dec f hrun _ _ => exact h.decodeFrameRegs hrun cfg.fpEval f f
  | setLimit v hrun => exact h.setLimit hrun v
  | reset => exact engineInv_reset

/-! ### All engines -/

/-- Every engine with its registers, the one in focus first. -/
def allEngines (s : State) : List (Nat × Engine) := (s.inst, s.eng) :: s.parked

/-- The invariant of the machine, of the list of all engines (R20, R46). -/
theorem inv_iff {s : State} :
    Inv s ↔ (∀ p ∈ allEngines s, EngineInv p.2) ∧ ((allEngines s).map Prod.fst).Nodup := by
  simp only [allEngines, List.forall_mem_cons, List.map_cons]
  exact ⟨fun ⟨hfocused, hothers, hdistinct⟩ => ⟨⟨hfocused, hothers⟩, hdistinct⟩,
    fun ⟨⟨hfocused, hothers⟩, hdistinct⟩ => ⟨hfocused, hothers, hdistinct⟩⟩

/-- Bringing an engine into focus reorders the engines. -/
theorem focus_perm {k : Nat} {s u : State} (h : focus k s = some u) : (allEngines s).Perm (allEngines u) := by
  unfold focus at h
  split at h
  · cases h; exact .refl _
  · split at h
    · rename_i e r htake
      cases h
      exact ((takeParked_perm htake).cons _).trans (.swap _ _ _)
    · cases h

/-- The invariant does not depend on which engine is in focus, nor on the turns. -/
theorem Inv.focus {k : Nat} {s u : State} {ts : List Turn} (h : Inv s) (hu : focus k { s with turns := ts } = some u) :
    Inv u := by
  have hperm : (allEngines s).Perm (allEngines u) := focus_perm (s := { s with turns := ts }) hu
  obtain ⟨hall, hnodup⟩ := inv_iff.mp h
  exact inv_iff.mpr ⟨fun p hp => hall p (hperm.mem_iff.mpr hp), (hperm.map _).nodup_iff.mp hnodup⟩

/-- Settles O50: the mover comes into focus, and its registers change in one of the ways that keep its invariant. -/
theorem stepKeepsInv : Obligations.StepKeepsInv := by
  intro s t hinv hstep
  obtain ⟨u, hu, heng, hinst, hparked, -⟩ := step_cases hstep
  have hu' := hinv.focus hu
  exact ⟨hu'.focused.step heng, hparked ▸ hu'.others, by rw [hinst, hparked]; exact hu'.distinct⟩

/-- Settles O49: one engine, with the reset registers. -/
theorem resetMeetsInv : Obligations.ResetMeetsInv :=
  ⟨engineInv_reset, by simp [State.reset], by simp [State.reset]⟩

end Sys2Proof.Machine
end

section
/-! PROOFS. What the acceptance of a command leaves, and the start of a cycle (40_host_commands.md R120 to R126). -/

namespace Sys2Proof.Machine

open Sys2Proof

/-- R123 to R125: an acquisition's own part where a handle is bound. -/
theorem startCycle_of_bound (op : Op) {e : Engine} (h : e.bound = true) :
    startCycle op e = { e with op := op, run := true } :=
  if_pos h

/-- Settles O10: the prologue leaves BOUND as it was, so the cycle starts. -/
theorem acquisitionStarts : Obligations.AcquisitionStarts := by
  intro i op s hrun hbound hrow
  have hexec : exec i s = .next (command (startCycle op) s) := by
    obtain ⟨rfl, rfl⟩ | ⟨rfl, rfl⟩ | ⟨rfl, rfl⟩ := hrow <;> rfl
  rw [hexec, command_accepted _ hrun, startCycle_of_bound op ((acceptPrologue_bound s.eng).trans hbound)]
  rfl

/-- What the acceptance of whatever command leaves of the registers `e` (R120). -/
structure ResultsCleared (e e' : Engine) : Prop where
  valid : e'.valid = false
  buserr : e'.buserr = 0#8
  state : e'.state = .idle
  retryCnt : e'.retryCnt = 0#16
  hum : e'.hum = none
  temp : e'.temp = none
  val : e'.val = none
  frame : e'.frame = none
  hc : e'.hc = none
  tc : e'.tc = none
  retryLimit : e'.retryLimit = e.retryLimit
  done : e'.done = !e'.run

/-- R206: a command that ends at once leaves what the prologue left, and DONE. -/
theorem resultsCleared_raise {f : Failure} (hf : f = .initError ∨ f = .cmdRefused) {e : Engine} (hrun : e.run = false) :
    ResultsCleared e (raise f (acceptPrologue e)) := by
  have hdone : true = !e.run := by rw [hrun]; rfl
  obtain rfl | rfl := hf <;> exact ⟨rfl, rfl, rfl, rfl, rfl, rfl, rfl, rfl, rfl, rfl, rfl, hdone⟩

/-- R122: INIT's own part. -/
theorem resultsCleared_bindHandle (cfg : Config) (bus : BusSel) (addr : BusAddr) {e : Engine} (hrun : e.run = false) :
    ResultsCleared e (bindHandle cfg bus addr (acceptPrologue e)) := by
  unfold bindHandle
  split
  · exact resultsCleared_raise (.inr rfl) hrun
  · split
    · constructor <;> simp [hrun]
    · exact resultsCleared_raise (.inl rfl) hrun

/-- R123 to R125: an acquisition's own part. -/
theorem resultsCleared_startCycle (op : Op) {e : Engine} (hrun : e.run = false) :
    ResultsCleared e (startCycle op (acceptPrologue e)) := by
  unfold startCycle
  split
  · constructor <;> simp
  · exact resultsCleared_raise (.inr rfl) hrun

/-- Settles O11: every word is a command, and each command's own part leaves the prologue's writes. -/
theorem acceptanceClearsResults : Obligations.AcceptanceClearsResults := by
  intro w s hrun
  obtain ⟨body, hexec, hbody⟩ := exec_cmd_cases (isCmdRow_decodeCmd w) s
  have hcleared : ResultsCleared s.eng (body (acceptPrologue s.eng)) := by
    obtain ⟨bus, addr, -, rfl⟩ | ⟨op, rfl⟩ | rfl := hbody
    · exact resultsCleared_bindHandle s.cfg bus addr hrun
    · exact resultsCleared_startCycle op hrun
    · exact resultsCleared_raise (.inr rfl) hrun
  obtain ⟨hvalid, hbuserr, hstate, hcnt, hhum, htemp, hval, hframe, hhc, htc, hlimit, hdone⟩ := hcleared
  rw [command_accepted body hrun] at hexec
  exact ⟨decodeCmd w, _, decode_cmd w, hexec, hvalid, hbuserr, hstate, hcnt, hhum, htemp, hval, hframe, hhc, htc,
    hlimit, hdone, rfl⟩

end Sys2Proof.Machine
end

section
/-! PROOFS. The two transactions, the status checks and the steps of the sequencer, one by one (20_memory.md R61, R62;
41_sequencer.md R140 to R147). -/

namespace Sys2Proof.Machine

open Sys2Proof

/-! ### Transactions by themselves -/

/-- R6, R60: the device an engine may address. -/
theorem ownDevice_iff {a : BusAddr} {e : Engine} : ownDevice a e = true ↔ e.bound = true ∧ e.addr = a := by
  simp [ownDevice]

/-- R6: an engine that is unbound or bound to another address has no such device. -/
theorem ownDevice_false {a : BusAddr} {e : Engine} (h : e.bound = false ∨ e.addr ≠ a) : ownDevice a e = false := by
  rw [Bool.eq_false_iff, ne_eq, ownDevice_iff]
  rintro ⟨hbound, haddr⟩
  exact h.elim (fun hb => absurd (hb.symm.trans hbound) (by decide)) (fun ha => ha haddr)

/-- Settles O12: the row is the transport's trigger, where the device is the engine's own. -/
theorem triggerTransaction : Obligations.TriggerTransaction := by
  intro a s
  constructor
  · intro hbound haddr
    obtain ⟨r, hscript, hbus⟩ := busTrigger_spec s.eng.busref a s
    refine ⟨r, hscript, (if_pos (ownDevice_iff.mpr ⟨hbound, haddr⟩)).trans ?_⟩
    rw [hbus]
    rfl
  · intro hother
    simp only [exec, execTrigger, ownDevice_false hother, Bool.false_eq_true, if_false]

/-- Settles O13: the row is the transport's read, where the device is the engine's own. -/
theorem readTransaction : Obligations.ReadTransaction := by
  intro a s
  constructor
  · intro hbound haddr
    obtain ⟨r, hscript, hbus⟩ := busRead4_spec s.eng.busref a s
    refine ⟨r, hscript, (if_pos (ownDevice_iff.mpr ⟨hbound, haddr⟩)).trans ?_⟩
    rw [hbus]
    rfl
  · intro hother
    simp only [exec, execRead4, ownDevice_false hother, Bool.false_eq_true, if_false]

/-! ### Status checks -/

/-- R143: the row of a frame's class is the status check on that frame. -/
theorem exec_decodeFrame (f : Frame) (s : State) :
    exec (decodeFrame f) s = whenEnabled (enabled .reading s.eng) (s.setEng (gateFrame f s.eng)) := by
  unfold decodeFrame
  split <;> rfl

/-- R143: a frame of status 00 is Ready. -/
theorem gateFrame_of_valid {f : Frame} (h : parseStatus f.b0 = Config.statusValid) (e : Engine) :
    gateFrame f e = { e with frame := some f, state := .ready } := by
  rw [gateFrame, if_pos h]

/-- R143: a frame of another status is NotReady. -/
theorem gateFrame_of_notValid {f : Frame} (h : parseStatus f.b0 ≠ Config.statusValid) (e : Engine) :
    gateFrame f e = { e with frame := some f, state := .notReady } := by
  rw [gateFrame, if_neg h]

/-- R143: the check of a frame of status 01, 10 or 11. -/
theorem whenEnabled_gateFrame_of_status {f : Frame} {s : State} {st : BitVec 2} (hen : enabled .reading s.eng = true)
    (hst : f.b0.extractLsb' 6 2 = st) (hne : st ≠ 0b00#2) :
    whenEnabled (enabled .reading s.eng) (s.setEng (gateFrame f s.eng)) =
      .next { s with eng := { s.eng with frame := some f, state := .notReady } } := by
  have hnot : parseStatus f.b0 ≠ Config.statusValid := fun h => hne (hst.symm.trans h)
  rw [gateFrame_of_notValid hnot]
  exact whenEnabled_next.mpr ⟨hen, rfl⟩

/-- Settles O14: each frame row is the status check on its frame, and S_CHK is that check on the frame held. -/
theorem frameClassGate : Obligations.FrameClassGate := by
  constructor
  · intro f s hrun hstate
    have hen : enabled .reading s.eng = true := enabled_iff.mpr ⟨hrun, hstate⟩
    refine ⟨fun h => ?_, fun h => whenEnabled_gateFrame_of_status hen h (by decide),
      fun h => whenEnabled_gateFrame_of_status hen h (by decide),
      fun h => whenEnabled_gateFrame_of_status hen h (by decide)⟩
    exact whenEnabled_next.mpr ⟨hen, by rw [gateFrame_of_valid h]; rfl⟩
  · intro s f hf
    rw [exec_decodeFrame, exec, execSChk, readFrame_held hf]

/-! ### The steps -/

/-- R147: S_DEC where it is enabled and F holds a frame. -/
theorem exec_sDec_held {s : State} {f : Frame} (hen : enabled .ready s.eng = true) (h : s.eng.frame = some f) :
    exec .sDec s = .next (s.setEng (decodeFrameRegs s.cfg.fpEval f s.eng)) := by
  refine whenEnabled_next.mpr ⟨hen, ?_⟩
  rw [readFrame_held h]

/-- Settles O15: both steps run on the frame that `readFrame` answers, and leave it in F. -/
theorem freeFrameSteps : Obligations.FreeFrameSteps := by
  intro s hrun _
  obtain ⟨f, -, hread⟩ := readFrame_spec s
  constructor
  · intro hstate
    have hen : enabled .reading s.eng = true := enabled_iff.mpr ⟨hrun, hstate⟩
    refine ⟨f, _, whenEnabled_next.mpr ⟨hen, rfl⟩, ?_⟩
    rw [hread]
    exact exec_sChk_held (f := f) (by exact hen) rfl
  · intro hstate
    have hen : enabled .ready s.eng = true := enabled_iff.mpr ⟨hrun, hstate⟩
    refine ⟨f, _, whenEnabled_next.mpr ⟨hen, rfl⟩, ?_⟩
    rw [hread]
    exact exec_sDec_held (f := f) (by exact hen) rfl

/-- R206, R150: the registers after a transport failure. -/
theorem raise_transportError_eq (c : BusErr) (e : Engine) :
    raise (.transportError c) e = { e with
      buserr := c, errkind := .transportError, state := .failedTransport, hum := none, temp := none
      val := if e.op = .acq then e.val else some lossySentinel
      err := true, run := false, done := true } := by
  rw [raise, completeFailure_eq]

/-- R206, R150: the registers after a timeout. -/
theorem raise_notReadyTimeout_eq (e : Engine) :
    raise .notReadyTimeout e = { e with
      errkind := .notReadyTimeout, state := .failedTimeout, hum := none, temp := none
      val := if e.op = .acq then e.val else some lossySentinel
      err := true, run := false, done := true } := by
  rw [raise, completeFailure_eq]

/-- R141: S_TRIG where it is enabled. -/
theorem exec_sTrig {s : State} (hen : enabled .idle s.eng = true) : ∃ (r : TrigAnswer) (d : Nat),
    (∀ x rest, s.trigScript = x :: rest → r = x) ∧
    exec .sTrig s = .next { s with
      trigScript := s.trigScript.tail
      draws := d
      history := s.history ++ [.trig s.inst s.eng.busref s.eng.addr r]
      eng := afterTrigger r s.eng } := by
  obtain ⟨r, hscript, hbus⟩ := busTrigger_spec s.eng.busref s.eng.addr s
  refine ⟨r, if s.trigScript.isEmpty then s.draws + 1 else s.draws, hscript, whenEnabled_next.mpr ⟨hen, ?_⟩⟩
  rw [hbus]
  rfl

/-- R142: S_READ where it is enabled. -/
theorem exec_sRead {s : State} (hen : enabled .triggered s.eng = true) : ∃ (r : ReadAnswer) (d : Nat),
    (∀ x rest, s.readScript = x :: rest → r = x) ∧
    exec .sRead s = .next { s with
      readScript := s.readScript.tail
      draws := d
      history := s.history ++ [.read s.inst s.eng.busref s.eng.addr r]
      eng := afterRead r s.eng } := by
  obtain ⟨r, hscript, hbus⟩ := busRead4_spec s.eng.busref s.eng.addr s
  refine ⟨r, if s.readScript.isEmpty then s.draws + 1 else s.draws, hscript, whenEnabled_next.mpr ⟨hen, ?_⟩⟩
  rw [hbus]
  rfl

/-- R144: S_RETRY where it is enabled. -/
theorem exec_sRetry {s : State} (hen : enabled .notReady s.eng = true) (hlim : limitReached s.eng = false) :
    ∃ (r : ReadAnswer) (d : Nat), (∀ x rest, s.readScript = x :: rest → r = x) ∧
    exec .sRetry s = .next { s with
      readScript := s.readScript.tail
      draws := d
      history := s.history ++ [.delay s.inst Config.retryDelayMs, .read s.inst s.eng.busref s.eng.addr r]
      eng := afterRead r { s.eng with retryCnt := retryCntNext s.eng.retryCnt } } := by
  obtain ⟨r, hscript, hbus⟩ := busRead4_spec s.eng.busref s.eng.addr (delay Config.retryDelayMs s)
  refine ⟨r, if s.readScript.isEmpty then s.draws + 1 else s.draws, hscript,
    whenEnabled_next.mpr ⟨by rw [hen, hlim]; rfl, ?_⟩⟩
  rw [hbus, delay_history, List.append_assoc]
  rfl

/-- Settles O16: S_TRIG's answer decides between Triggered and the failure entry. -/
theorem triggerStep : Obligations.TriggerStep := by
  intro s hrun hstate
  obtain ⟨r, d, hscript, hexec⟩ := exec_sTrig (enabled_iff.mpr ⟨hrun, hstate⟩)
  refine ⟨r, d, hscript, ?_⟩
  rw [hexec]
  cases r with
  | ok => rfl
  | err c => rw [afterTrigger, raise_transportError_eq]; rfl

/-- Settles O17: S_READ's answer decides between Reading and the failure entry. -/
theorem readStep : Obligations.ReadStep := by
  intro s hrun hstate
  obtain ⟨r, d, hscript, hexec⟩ := exec_sRead (enabled_iff.mpr ⟨hrun, hstate⟩)
  refine ⟨r, d, hscript, ?_⟩
  rw [hexec]
  cases r with
  | ok f => rfl
  | err c => rw [afterRead, raise_transportError_eq]; rfl

/-- The saturating count as the spec writes it (R144, D30). -/
theorem retryCntNext_eq (c : BitVec 16) : retryCntNext c = BitVec.ofNat 16 (min (c.toNat + 1) 0xFFFF) := by
  rw [← retryCntNext_toNat, BitVec.ofNat_toNat, BitVec.setWidth_eq]

/-- Settles O19: the delay and the count come whatever the read answers, and the answer decides the rest. -/
theorem retryStep : Obligations.RetryStep := by
  intro s hrun hstate hlimit
  obtain ⟨r, d, hscript, hexec⟩ := exec_sRetry (enabled_iff.mpr ⟨hrun, hstate⟩) (limitReached_false_iff.mpr hlimit)
  refine ⟨r, d, hscript, ?_⟩
  rw [hexec, retryCntNext_eq]
  cases r with
  | ok f => rfl
  | err c => rw [afterRead, raise_transportError_eq]; rfl

/-- R147, R150: the registers after the decode step. -/
theorem decodeFrameRegs_eq (ev : FpEval) (f : Frame) (e : Engine) :
    decodeFrameRegs ev f e = { e with
      hc := some (parseHcode f.b0 f.b1), tc := some (parseTcode f.b2 f.b3)
      hum := some (scaleH ev (parseHcode f.b0 f.b1)), temp := some (scaleT ev (parseTcode f.b2 f.b3))
      val := match e.op with
        | .acq => e.val
        | .rdt => some (scaleT ev (parseTcode f.b2 f.b3))
        | .rdh => some (scaleH ev (parseHcode f.b0 f.b1))
      valid := true, state := .decoded, run := false, done := true } := by
  unfold decodeFrameRegs completeSuccess
  cases e.op <;> rfl

/-- Settles O21: the step on the frame held, VAL by the command. -/
theorem decodeStep : Obligations.DecodeStep := by
  intro s f hrun hstate hf
  rw [exec_sDec_held (enabled_iff.mpr ⟨hrun, hstate⟩) hf, decodeFrameRegs_eq]
  rfl

/-! ### Where no step exists -/

/-- R140: a step outside its precondition does not exist. -/
theorem whenEnabled_false {c : Bool} (h : c = false) (s : State) : whenEnabled c s = .refused .stepNotEnabled := by
  rw [h]
  rfl

/-- R140: RUN = 0 and another STATE are outside a step's precondition. -/
theorem enabled_false {st : SeqState} {e : Engine} (h : e.run = false ∨ e.state ≠ st) : enabled st e = false := by
  rw [Bool.eq_false_iff, ne_eq, enabled_iff]
  rintro ⟨hrun, hstate⟩
  exact h.elim (fun hr => absurd (hr.symm.trans hrun) (by decide)) (fun hs => hs hstate)

/-- Settles O22: each step, and each check of a frame, is guarded by its precondition. -/
theorem stepsExistOnlyInTheirState : Obligations.StepsExistOnlyInTheirState := by
  intro s
  refine ⟨fun h => whenEnabled_false (enabled_false h) _, fun h => whenEnabled_false (enabled_false h) _,
    fun h => whenEnabled_false (enabled_false h) _, fun h => whenEnabled_false ?_ _, fun h => whenEnabled_false ?_ _,
    fun h => whenEnabled_false (enabled_false h) _, fun h f => ?_⟩
  · obtain hrun | hstate | hreached := h
    · rw [enabled_false (.inl hrun), Bool.false_and]
    · rw [enabled_false (.inr hstate), Bool.false_and]
    · rw [limitReached_iff.mpr hreached, Bool.not_true, Bool.and_false]
  · obtain hrun | hstate | hbelow := h
    · rw [enabled_false (.inl hrun), Bool.false_and]
    · rw [enabled_false (.inr hstate), Bool.false_and]
    · rw [limitReached_false_iff.mpr hbelow, Bool.and_false]
  · have hnone := whenEnabled_false (enabled_false h) (s.setEng (gateFrame f s.eng))
    exact ⟨hnone, hnone, hnone, hnone⟩

end Sys2Proof.Machine
end

section
/-! PROOFS. Word reads of the other registers, reserved offsets and accesses that are no aligned word (10_state.md R37,
R39, R41; 20_memory.md R67; 40_host_commands.md R127). -/

namespace Sys2Proof.Machine

open Sys2Proof

/-- R127: a read of a register that holds a value delivers it. -/
theorem hostAccess_read_some {off : Nat} (h : off % 4 = 0) {s : State} {v : Word} (hv : readReg s.eng off = some v) :
    hostAccess (.read off .word) s = .next { s with out := some (.hostWord v) } := by
  rw [hostAccess_read_word h, hv]
  rfl

/-- R33, U7: a read of a register that holds no_value delivers a free value. -/
theorem hostAccess_read_none {off : Nat} (h : off % 4 = 0) {s : State} (hv : readReg s.eng off = none) :
    hostAccess (.read off .word) s =
      .next { s with draws := s.draws + 1, out := some (.hostWord (Config.freeResult s.draws)) } := by
  rw [hostAccess_read_word h, hv]
  rfl

/-- R39: the fields of CONFIG. -/
theorem configWord_fields (e : Engine) :
    (configWord e).extractLsb' 0 7 = e.addr ∧ (configWord e).getLsbD 7 = false ∧
      (configWord e).extractLsb' 8 8 = e.busref ∧ (configWord e).extractLsb' 16 16 = 0#16 := by
  refine ⟨?_, ?_, ?_, ?_⟩
  · simp [configWord, BitVec.extractLsb'_or, extractLsb'_place_same, extractLsb'_place_disjoint]
  · simp [configWord, -BitVec.getLsbD_eq_getElem]
  · simp [configWord, BitVec.extractLsb'_or, extractLsb'_place_same, extractLsb'_place_disjoint]
  · simp [configWord, BitVec.extractLsb'_or, extractLsb'_place_disjoint]

/-- A field at bit 0 of a word is the word's low part. -/
theorem place_zero {n : Nat} (v : BitVec n) : place v 0 = v.setWidth 32 := by
  rw [place, BitVec.shiftLeft_zero]

/-- Settles O39: each of these registers always holds a value. -/
theorem plainReads : Obligations.PlainReads := by
  intro s
  refine ⟨hostAccess_read_some rfl rfl,
    ⟨configWord s.eng, hostAccess_read_some rfl rfl, configWord_fields s.eng⟩, ?_, ?_⟩
  · rw [← place_zero]
    exact hostAccess_read_some rfl rfl
  · rw [← place_zero]
    exact hostAccess_read_some rfl rfl

/-- R41: a reserved offset reads 0. -/
theorem readReg_reserved (e : Engine) {off : Nat} (h : 0x20 ≤ off) : readReg e off = some 0#32 := by
  unfold readReg
  split
  case h_9 => rfl
  all_goals omega

/-- Settles O40: a reserved offset reads 0, and is no RETRY_LIMIT. -/
theorem reservedOffsets : Obligations.ReservedOffsets := by
  intro off v s hoff haligned
  refine ⟨hostAccess_read_some haligned (readReg_reserved s.eng hoff), ?_⟩
  rw [hostAccess_write_word haligned, writeReg_ignored v (by omega), State.setEng_self]

/-- R37: the three result registers by their offsets. -/
theorem readReg_result {off : Nat} {e : Engine} {r : Option B32}
    (h : (off = 0x14 ∧ r = e.hum) ∨ (off = 0x18 ∧ r = e.temp) ∨ (off = 0x1C ∧ r = e.val)) :
    off % 4 = 0 ∧ readReg e off = r := by
  obtain ⟨rfl, rfl⟩ | ⟨rfl, rfl⟩ | ⟨rfl, rfl⟩ := h <;> exact ⟨rfl, rfl⟩

/-- Settles O41: the register at the offset decides between its value and a free one. -/
theorem resultReads : Obligations.ResultReads := by
  intro off s r h
  obtain ⟨haligned, hreg⟩ := readReg_result h
  exact ⟨fun v hv => hostAccess_read_some haligned (hreg.trans hv),
    fun hnone => ⟨_, _, hostAccess_read_none haligned (hreg.trans hnone)⟩⟩

/-- Settles O43: neither a read nor a write passes the check of size and alignment. -/
theorem narrowAccessRefused : Obligations.NarrowAccessRefused := by
  intro off size v s h
  have hnarrow : alignedWord off size = false := by
    simp only [alignedWord, Bool.and_eq_false_iff, beq_eq_false_iff_ne]
    exact h
  simp only [hostAccess, hnarrow, Bool.false_eq_true, if_false, and_self]

end Sys2Proof.Machine
end

section
/-! PROOFS. What the next turn makes a step do (00_scope.md R14, 10_state.md R20, R40, 41_sequencer.md R140,
70_reset_and_hazards.md R240 to R242). -/

namespace Sys2Proof.Machine

open Sys2Proof

/-- R40, R98: a word that a port decodes is run as its operation. -/
theorem step_of_fetchWord {s u : State} {p : Port} {w : Word} {i : Instr} (hfetch : fetch s = fetchWord p w u)
    (hdec : decode p w = .ok i) : step s = exec i u := by
  simp only [step, hfetch, fetchWord, hdec]

/-- R98: the SEQ word is the number of STATE. -/
theorem seqWord_eq (e : Engine) : seqWord e = (stateCode e.state).setWidth 32 :=
  place_zero _

/-- R140: with RUN = 1 the sequencer runs the step that STATE and LimitReached select. -/
theorem step_of_fetchSequencer {s u : State} {i : Instr} (hfetch : fetch s = fetchSequencer u)
    (hrun : u.eng.run = true)
    (hdec : decode (.seq (limitReached u.eng)) ((stateCode u.eng.state).setWidth 32) = .ok i) : step s = exec i u := by
  rw [fetchSequencer, if_pos hrun, seqWord_eq] at hfetch
  exact step_of_fetchWord hfetch hdec

/-- R140: with RUN = 0 the sequencer has no step. -/
theorem step_of_fetchSequencer_idle {s u : State} (hfetch : fetch s = fetchSequencer u) (hrun : u.eng.run = false) :
    step s = .next u := by
  simp only [step, hfetch, fetchSequencer, hrun, Bool.false_eq_true, if_false]

/-- R20: every existing engine comes into focus, and nothing else changes. -/
theorem focus_of_engineOf {s : State} {k : Nat} {e : Engine} (ts : List Turn) (he : engineOf s k = some e) :
    ∃ u, focus k { s with turns := ts } = some u ∧ u.inst = k ∧ u.eng = e ∧
      (∀ j, engineOf u j = engineOf s j) ∧ (k = s.inst → u = { s with turns := ts }) ∧
      u.cfg = s.cfg ∧ u.turns = ts ∧ u.trigScript = s.trigScript ∧ u.readScript = s.readScript ∧
      u.draws = s.draws ∧ u.history = s.history ∧ u.out = s.out := by
  obtain ⟨u, hu⟩ := focus_exists (s := { s with turns := ts }) he
  obtain ⟨hinst, heng, hall, hrest⟩ := focus_spec hu
  refine ⟨u, hu, hinst, Option.some.inj (heng.symm.trans he), hall, fun hk => ?_, hrest⟩
  subst hk
  exact Option.some.inj (hu.symm.trans (focus_self { s with turns := ts }))

/-- With no engine parked the one in focus has waited longest. -/
theorem longestWaiting_of_parked_nil {s : State} (h : s.parked = []) : longestWaiting s = s.inst := by
  simp only [longestWaiting, h, List.getLast?_nil]

/-- Settles O44: each kind of turn by what its fetch is. -/
theorem stepRunsDecoded : Obligations.StepRunsDecoded := by
  refine ⟨fun s k ts e he => focus_of_engineOf ts he, ?_, ?_, ?_, ?_, ?_, ?_⟩
  · intro s u k w ts i hturn hu hdec
    exact step_of_fetchWord (fetch_turn hturn hu) hdec
  · intro s u k p w ts i hturn hu hdec
    exact step_of_fetchWord (fetch_turn hturn hu) hdec
  · intro s u k ts i hturn hu hrun hdec
    exact step_of_fetchSequencer (fetch_turn hturn hu) hrun hdec
  · intro s u i hturn hu hrun hdec
    exact step_of_fetchSequencer (fetch_noTurn hturn hu) hrun hdec
  · exact fun s => ⟨longestWaiting_exists s, longestWaiting_of_parked_nil⟩
  · intro s t ts hturn hnone
    simp only [step, fetch_turn_none hturn hnone]

/-- Settles O45: an access that is no command is fetched as a register access. -/
theorem stepRunsHostAccess : Obligations.StepRunsHostAccess :=
  fun _ _ _ _ _ hturn hu ha => step_host_access hturn hu ha

/-- Settles O46: with and without a turn it is the sequencer's, and RUN = 0. -/
theorem idleSequencerChangesNothing : Obligations.IdleSequencerChangesNothing :=
  ⟨fun _ _ hturn hu hrun => step_of_fetchSequencer_idle (fetch_noTurn hturn hu) hrun,
    fun _ _ _ _ hturn hu hrun => step_of_fetchSequencer_idle (fetch_turn hturn hu) hrun⟩

/-- Settles O47: the reset of the engine in focus, at the moment that the turn names. -/
theorem resetTurn : Obligations.ResetTurn := by
  intro s u k m ts hturn hu
  obtain ⟨hinst, -⟩ := focus_spec hu
  simp only [step, fetch_turn hturn hu, fetchTurn, resetAt_spec, enabled_iff, limitReached_false_iff, hinst, and_assoc,
    Config.retryUnbounded]
  split
  · rfl
  · rw [List.append_nil]
    rfl

end Sys2Proof.Machine
end

section
/-! PROOFS. The kinds of a step by its turn; the handle, the independence of the engines, and what clears DONE
(10_state.md R20, R23, R46 (h); 00_scope.md R15, R16; 40_host_commands.md R127). -/

namespace Sys2Proof.Machine

open Sys2Proof

/-! ### The kinds of a step -/

/-- What a step is, by the turn it takes, from the state `u` in which the mover is in focus. -/
inductive StepKind (s u t : State) : Prop where
  /-- A reset (R240). -/
  | reset (m : ResetMoment) (ts : List Turn) (hturn : s.turns = .reset (mover s) m :: ts) (ht : t = resetAt m u)
  /-- A command word, written by the host or put on the CMD port (R40, log 7). -/
  | command (w : Word) (ts : List Turn)
      (hturn : s.turns = .host (mover s) (.write 0x00 .word w) :: ts ∨ s.turns = .port (mover s) .cmd w :: ts)
      (hexec : exec (decodeCmd w) u = .next t)
  /-- Another access of the host (R127, R128). -/
  | access (a : HostAccess) (haccess : hostAccess a u = .next t)
  /-- A row of another format than CMD. -/
  | row (i : Instr) (hrow : isCmdRow i = false) (hexec : exec i u = .next t)
  /-- The sequencer of an engine at rest (R140). -/
  | idle (ht : t = u)

/-- A port other than CMD yields rows of other formats. -/
theorem isCmdRow_of_decode {p : Port} {w : Word} {i : Instr} (hp : p ≠ .cmd) (h : decode p w = .ok i) :
    isCmdRow i = false := by
  obtain ⟨-, -, hport⟩ := encodeOfDecode p w i hp h
  rw [isCmdRow, beq_eq_false_iff_ne]
  obtain hport | ⟨b, c, hport, -⟩ := hport
  · rw [hport]; exact hp
  · rw [hport]; exact Port.noConfusion

/-- A step on what a port brings runs the operation decoded. -/
theorem exec_of_step_fetchWord {s u t : State} {p : Port} {w : Word} (hfetch : fetch s = fetchWord p w u)
    (hstep : step s = .next t) : ∃ i, decode p w = .ok i ∧ exec i u = .next t := by
  simp only [step, hfetch, fetchWord] at hstep
  cases hdec : decode p w with
  | ok i => rw [hdec] at hstep; exact ⟨i, rfl, hstep⟩
  | error r => rw [hdec] at hstep; cases hstep

/-- A step of the sequencer is a row of format SEQ, or nothing (R140). -/
theorem stepKind_of_fetchSequencer {s u t : State} (hfetch : fetch s = fetchSequencer u) (hstep : step s = .next t) :
    StepKind s u t := by
  cases hrun : u.eng.run with
  | false =>
    rw [step_of_fetchSequencer_idle hfetch hrun] at hstep
    cases hstep
    exact .idle rfl
  | true =>
    rw [fetchSequencer, if_pos hrun] at hfetch
    obtain ⟨i, hdec, hexec⟩ := exec_of_step_fetchWord hfetch hstep
    exact .row i (isCmdRow_of_decode Port.noConfusion hdec) hexec

/-- Where no turn is left, none is taken. -/
theorem drop_turn_of_nil {s : State} (h : s.turns = []) : ({ s with turns := s.turns.tail } : State) = s := by
  rw [h, List.tail_nil, ← h]

/-- Every step is of one of the kinds. -/
theorem step_kind {s t : State} (hstep : step s = .next t) :
    ∃ u, focus (mover s) { s with turns := s.turns.tail } = some u ∧ StepKind s u t := by
  obtain ⟨u, hu, -⟩ := step_cases hstep
  refine ⟨u, hu, ?_⟩
  cases hturns : s.turns with
  | nil =>
    rw [drop_turn_of_nil hturns, mover, hturns] at hu
    exact stepKind_of_fetchSequencer (fetch_noTurn hturns hu) hstep
  | cons turn ts =>
    have hm : mover s = turn.target := by rw [mover, hturns]
    rw [hm, hturns] at hu
    have hfetch := fetch_turn hturns hu
    cases turn with
    | reset k m =>
      simp only [step, hfetch, fetchTurn] at hstep
      cases hstep
      exact .reset m ts (hm ▸ hturns) rfl
    | sequencer k => exact stepKind_of_fetchSequencer hfetch hstep
    | host k a =>
      by_cases hcmd : ∃ w, a = .write 0 .word w
      · obtain ⟨w, rfl⟩ := hcmd
        exact .command w ts (.inl (hm ▸ hturns)) (step_host_command hturns hu ▸ hstep)
      · exact .access a (step_host_access hturns hu (not_exists.1 hcmd) ▸ hstep)
    | port k p w =>
      obtain ⟨i, hdec, hexec⟩ := exec_of_step_fetchWord hfetch hstep
      by_cases hp : p = .cmd
      · subst hp
        rw [decode_cmd] at hdec
        cases hdec
        exact .command w ts (.inr (hm ▸ hturns)) hexec
      · exact .row i (isCmdRow_of_decode hp hdec) hexec

/-! ### What an operation that is no command keeps -/

/-- What every step of a cycle keeps of an engine: its handle, and DONE where it is set. -/
structure CycleKeeps (e e' : Engine) : Prop where
  bound : e'.bound = e.bound
  busref : e'.busref = e.busref
  addr : e'.addr = e.addr
  done : e.done = true → e'.done = true

/-- No register changed. -/
theorem CycleKeeps.refl (e : Engine) : CycleKeeps e e :=
  ⟨rfl, rfl, rfl, id⟩

/-- R141: a trigger's answer. -/
theorem cycleKeeps_afterTrigger (r : TrigAnswer) (e : Engine) : CycleKeeps e (afterTrigger r e) := by
  cases r with
  | ok => exact ⟨rfl, rfl, rfl, id⟩
  | err c => exact ⟨rfl, rfl, rfl, fun _ => rfl⟩

/-- R142, R144: a read's answer, with whatever count the step has written before it. -/
theorem cycleKeeps_afterRead (r : ReadAnswer) (cnt : BitVec 16) (e : Engine) :
    CycleKeeps e (afterRead r { e with retryCnt := cnt }) := by
  cases r with
  | ok f => exact ⟨rfl, rfl, rfl, id⟩
  | err c => exact ⟨rfl, rfl, rfl, fun _ => rfl⟩

/-- R143: the check of a frame. -/
theorem cycleKeeps_gateFrame (f : Frame) (e : Engine) : CycleKeeps e (gateFrame f e) :=
  ⟨rfl, rfl, rfl, id⟩

/-- R170, R140: an operation of another format than CMD is a step of a cycle or writes no register. -/
theorem exec_row_keeps {i : Instr} {s t : State} (hi : isCmdRow i = false) (h : exec i s = .next t) :
    CycleKeeps s.eng t.eng := by
  cases i with
  | trigger a =>
    obtain ⟨r, -, hbus⟩ := busTrigger_spec s.eng.busref a s
    simp only [exec, execTrigger, hbus] at h
    split at h <;> cases h
    exact .refl _
  | read4 a =>
    obtain ⟨r, -, hbus⟩ := busRead4_spec s.eng.busref a s
    simp only [exec, execRead4, hbus] at h
    split at h <;> cases h
    exact .refl _
  | frameValid f | frameNotready01 f | frameNotready10 f | frameNotready11 f =>
    obtain ⟨-, rfl⟩ := whenEnabled_next.1 h
    exact cycleKeeps_gateFrame f s.eng
  | sTrig =>
    obtain ⟨-, rfl⟩ := whenEnabled_next.1 h
    exact cycleKeeps_afterTrigger _ s.eng
  | sRead =>
    obtain ⟨-, rfl⟩ := whenEnabled_next.1 h
    exact cycleKeeps_afterRead _ s.eng.retryCnt s.eng
  | sChk =>
    obtain ⟨-, rfl⟩ := whenEnabled_next.1 h
    exact cycleKeeps_gateFrame _ s.eng
  | sRetry =>
    obtain ⟨-, rfl⟩ := whenEnabled_next.1 h
    exact cycleKeeps_afterRead _ (retryCntNext s.eng.retryCnt) s.eng
  | sTimeout =>
    obtain ⟨-, rfl⟩ := whenEnabled_next.1 h
    exact ⟨rfl, rfl, rfl, fun _ => rfl⟩
  | sDec =>
    obtain ⟨-, rfl⟩ := whenEnabled_next.1 h
    obtain ⟨f, -, hread⟩ := readFrame_spec s
    rw [hread]
    exact ⟨rfl, rfl, rfl, fun _ => rfl⟩
  | fStatus | fHcode | fTcode | fScaleh | fScalet | fDecode =>
    cases h; exact .refl _
  | init | acq | rdt | rdh
  | reservedCmd0 | reservedCmd5 | reservedCmd6 | reservedCmd7 | reservedCmd8 | reservedCmd9
  | reservedCmdA | reservedCmdB | reservedCmdC | reservedCmdD | reservedCmdE | reservedCmdF =>
    cases hi

/-- R127, R128: a register access writes at most RETRY_LIMIT. -/
theorem hostAccess_keeps_handle {a : HostAccess} {s t : State} (h : hostAccess a s = .next t) :
    CycleKeeps s.eng t.eng := by
  cases a with
  | read off size =>
    simp only [hostAccess] at h
    split at h
    · cases h
      obtain ⟨w, d, hread, -⟩ := deliverRead_spec (readReg s.eng off) s
      rw [hread]
      exact .refl _
    · cases h
  | write off size v =>
    simp only [hostAccess] at h
    split at h
    · cases h
      rw [State.setEng_eng, writeReg]
      split
      · exact ⟨rfl, rfl, rfl, id⟩
      · exact .refl _
    · cases h

/-! ### The handle while bound -/

/-- R122, R126: a command to a bound engine leaves its handle as it is. -/
theorem exec_command_keeps_handle {w : Word} {u t : State} (h : exec (decodeCmd w) u = .next t)
    (hbound : u.eng.bound = true) :
    t.eng.bound = true ∧ t.eng.busref = u.eng.busref ∧ t.eng.addr = u.eng.addr := by
  obtain ⟨body, hexec, hbody⟩ := exec_cmd_cases (isCmdRow_decodeCmd w) u
  rw [hexec] at h
  cases h
  cases hrun : u.eng.run with
  | true => rw [command_busy body hrun]; exact ⟨hbound, rfl, rfl⟩
  | false =>
    rw [command_accepted body hrun]
    obtain ⟨bus, addr, -, rfl⟩ | ⟨op, rfl⟩ | rfl := hbody
    · rw [bindHandle_of_bound u.cfg bus addr ((acceptPrologue_bound u.eng).trans hbound)]
      exact ⟨hbound, rfl, rfl⟩
    · rw [startCycle_of_bound op ((acceptPrologue_bound u.eng).trans hbound)]
      exact ⟨hbound, rfl, rfl⟩
    · exact ⟨hbound, rfl, rfl⟩

/-- A step's own engine after it is the one in focus. -/
theorem engineOf_inst (t : State) : engineOf t t.inst = some t.eng :=
  if_pos rfl

/-- R20: a step leaves every engine but the mover as it was. -/
theorem engineOf_step_other {s t : State} {k : Nat} (hstep : step s = .next t) (hk : k ≠ mover s) :
    engineOf t k = engineOf s k := by
  obtain ⟨u, hu, -, hinst, hparked, -⟩ := step_cases hstep
  obtain ⟨hfocus, -, hall, -⟩ := focus_spec hu
  refine Eq.trans ?_ (hall k)
  rw [engineOf, engineOf, if_neg (by rw [hinst, hfocus]; exact hk), if_neg (by rw [hfocus]; exact hk), hparked]

/-- R20: a step's mover is in focus after it, with the registers that the step gave it; before it, it has the registers
in focus that the step starts from. -/
theorem engineOf_step_mover {s t u : State} (hstep : step s = .next t)
    (hu : focus (mover s) { s with turns := s.turns.tail } = some u) :
    engineOf s (mover s) = some u.eng ∧ engineOf t (mover s) = some t.eng := by
  obtain ⟨u', hu', -, hinst, -⟩ := step_cases hstep
  obtain ⟨hfocus, heng, -⟩ := focus_spec hu
  obtain rfl := Option.some.inj (hu.symm.trans hu')
  exact ⟨heng, by rw [← hfocus, ← hinst]; exact engineOf_inst t⟩

/-- Settles O51: only the mover's registers change, and of the kinds of a step only the reset writes a bound handle. -/
theorem handleFixedWhileBound : Obligations.HandleFixedWhileBound := by
  intro s t k e hstep he hbound hnoreset
  by_cases hk : k = mover s
  · subst hk
    obtain ⟨u, hu, hkind⟩ := step_kind hstep
    obtain ⟨hbefore, hafter⟩ := engineOf_step_mover hstep hu
    obtain rfl := Option.some.inj (he.symm.trans hbefore)
    refine ⟨t.eng, hafter, ?_⟩
    have hof : CycleKeeps u.eng t.eng → t.eng.bound = true ∧ t.eng.busref = u.eng.busref ∧ t.eng.addr = u.eng.addr :=
      fun h => ⟨h.bound.trans hbound, h.busref, h.addr⟩
    cases hkind with
    | reset m ts hturn _ => exact absurd hturn (hnoreset m ts)
    | command w ts _ hexec => exact exec_command_keeps_handle hexec hbound
    | access a haccess => exact hof (hostAccess_keeps_handle haccess)
    | row i hrow hexec => exact hof (exec_row_keeps hrow hexec)
    | idle ht => subst ht; exact hof (.refl _)
  · exact ⟨e, (engineOf_step_other hstep hk).trans he, hbound, rfl, rfl⟩

/-! ### Independence and fairness -/

/-- The last of the parked engines, its number being no other's, is taken out from the end. -/
theorem takeParked_last {l : List (Nat × Engine)} {p : Nat × Engine} (h : p.1 ∉ l.map Prod.fst) :
    takeParked p.1 (l ++ [p]) = some (p.2, l) := by
  induction l with
  | nil => simp [takeParked]
  | cons q l ih =>
    obtain ⟨hne, hnotin⟩ := not_or.mp (List.mem_cons.not.mp h)
    have hq : ¬ q.1 = p.1 := fun hqp => hne hqp.symm
    rw [List.cons_append, takeParked, if_neg hq, ih hnotin]

/-- R16: with no turn left and every number given once, the first of the waiting order moves and becomes the last. -/
theorem waitingOrder_focus {s u : State} (hnodup : (s.inst :: s.parked.map Prod.fst).Nodup)
    (hu : focus (longestWaiting s) s = some u) :
    (waitingOrder s).head? = some (longestWaiting s) ∧
      (u.parked.map Prod.fst).reverse ++ [u.inst] = (waitingOrder s).rotate 1 := by
  obtain hnil | ⟨l, p, hl⟩ := s.parked.eq_nil_or_concat
  · rw [longestWaiting_of_parked_nil hnil, focus_self] at hu
    cases hu
    simp [waitingOrder, longestWaiting, hnil]
  · rw [List.concat_eq_append] at hl
    have hm : longestWaiting s = p.1 := by simp [longestWaiting, hl]
    simp only [hl, List.map_append, List.map_cons, List.map_nil, List.nodup_cons, List.mem_append, List.mem_singleton,
      not_or, List.nodup_append] at hnodup
    obtain ⟨⟨-, hinst⟩, -, -, hdisj⟩ := hnodup
    have hnotin : p.1 ∉ l.map Prod.fst := fun hin => hdisj p.1 hin p.1 rfl rfl
    rw [hm, focus, if_neg (fun h => hinst h.symm), hl, takeParked_last hnotin] at hu
    cases hu
    simp [waitingOrder, hl, hm]

/-- Settles O52: only the mover moves; with no turn left the waiting order turns by one; parameters stay. -/
theorem instancesShareNothing : Obligations.InstancesShareNothing := by
  refine ⟨fun s t k hstep hk => engineOf_step_other hstep hk, fun s t hstep hturns hnodup => ?_, fun s t hstep => ?_⟩
  · obtain ⟨u, hu, -, hinst, hparked, -, htail⟩ := step_cases hstep
    have hm : mover s = longestWaiting s := by rw [mover, hturns]
    rw [drop_turn_of_nil hturns, hm] at hu
    obtain ⟨-, -, -, -, hturnsu, -⟩ := focus_spec hu
    obtain ⟨hhead, hrotate⟩ := waitingOrder_focus hnodup hu
    refine ⟨hm ▸ hhead, ?_, htail.trans (hturnsu.trans hturns)⟩
    rw [← hrotate, waitingOrder, hinst, hparked]
  · obtain ⟨u, hu, -, -, -, hcfg, -⟩ := step_cases hstep
    obtain ⟨-, -, -, hcfgu, -⟩ := focus_spec hu
    exact hcfg.trans hcfgu

/-! ### What clears DONE -/

/-- R121: a command that changes the registers was accepted with RUN = 0. -/
theorem run_of_exec_command_ne {w : Word} {u t : State} (h : exec (decodeCmd w) u = .next t) (hne : t.eng ≠ u.eng) :
    u.eng.run = false := by
  rw [Bool.eq_false_iff]
  intro hrun
  rw [commandIgnoredWhileBusy (decodeCmd w) u (isCmdRow_decodeCmd w) hrun] at h
  cases h
  exact hne rfl

/-- Settles O53: of the kinds of a step only a reset and an accepted command clear DONE. -/
theorem doneClearedOnlyByCommand : Obligations.DoneClearedOnlyByCommand := by
  intro s t k e e' hstep he he' hdone hcleared
  by_cases hk : k = mover s
  · subst hk
    obtain ⟨u, hu, hkind⟩ := step_kind hstep
    obtain ⟨hbefore, hafter⟩ := engineOf_step_mover hstep hu
    obtain rfl := Option.some.inj (he.symm.trans hbefore)
    obtain rfl := Option.some.inj (he'.symm.trans hafter)
    have hno : ¬ CycleKeeps u.eng t.eng := fun h => absurd (hcleared.symm.trans (h.done hdone)) (by decide)
    cases hkind with
    | reset m ts hturn _ => exact ⟨ts, .inl ⟨m, hturn⟩⟩
    | command w ts hturn hexec =>
      have hne : t.eng ≠ u.eng := fun h => hno (h ▸ .refl _)
      exact ⟨ts, .inr ⟨run_of_exec_command_ne hexec hne, w, hturn⟩⟩
    | access a haccess => exact absurd (hostAccess_keeps_handle haccess) hno
    | row i hrow hexec => exact absurd (exec_row_keeps hrow hexec) hno
    | idle ht => subst ht; exact absurd (.refl _) hno
  · obtain rfl := Option.some.inj ((he'.symm.trans (engineOf_step_other hstep hk)).trans he)
    exact absurd (hdone.symm.trans hcleared) (by decide)

end Sys2Proof.Machine
end

section
/-! PROOFS. A step does not depend on the records (41_sequencer.md R156): with a scripted answer of each kind left, the
same step from a state with another history, count of free values and delivery ends in a state that agrees. -/

namespace Sys2Proof.Machine

open Sys2Proof

/-- The state with other records of what happened. -/
def State.withRecords (s : State) (h : List BusEvent) (d : Nat) (o : Option Delivered) : State :=
  { s with history := h, draws := d, out := o }

/-- A state that agrees with `s` is `s` with other records. -/
theorem eq_withRecords_of_agree {s s' : State} (h : agree s s') :
    s' = s.withRecords s'.history s'.draws s'.out := by
  simp only [agree, State.mk.injEq, and_true] at h
  obtain ⟨hinst, heng, hparked, hcfg, hturns, htrig, hread⟩ := h
  rw [State.withRecords, hinst, heng, hparked, hcfg, hturns, htrig, hread]

/-- Two outcomes of which the second is a next state that agrees, wherever the first is a next state. -/
def SameNext (r r' : Result) : Prop := ∀ t, r = .next t → ∃ t', r' = .next t' ∧ agree t t'

section
variable (s : State) (h : List BusEvent) (d : Nat) (o : Option Delivered)

/-! ### Where the next turn is fetched -/

/-- What the step has to do, in a state changed by `g`. -/
def Fetched.mapState (g : State → State) : Fetched → Fetched
  | .instr i u => .instr i (g u)
  | .access a u => .access a (g u)
  | .reset m u => .reset m (g u)
  | .idle u => .idle (g u)
  | .undecodable r => .undecodable r
  | .noInstance => .noInstance

/-- The records do not decide which engine comes into focus. -/
theorem focus_withRecords (k : Nat) :
    focus k (s.withRecords h d o) = (focus k s).map fun u => u.withRecords h d o := by
  rw [focus, focus]
  split
  · rename_i hk
    rw [if_pos (show k = s.inst from hk)]
    rfl
  · rename_i hk
    rw [if_neg (show ¬ k = s.inst from hk), show (s.withRecords h d o).parked = s.parked from rfl]
    cases takeParked k s.parked <;> rfl

/-- Nor what a word stands for. -/
theorem fetchWord_withRecords (p : Port) (w : Word) :
    fetchWord p w (s.withRecords h d o) = (fetchWord p w s).mapState fun u => u.withRecords h d o := by
  rw [fetchWord, fetchWord]
  cases decode p w <;> rfl

/-- Nor which step the sequencer takes. -/
theorem fetchSequencer_withRecords :
    fetchSequencer (s.withRecords h d o) = (fetchSequencer s).mapState fun u => u.withRecords h d o := by
  rw [fetchSequencer, fetchSequencer, show (s.withRecords h d o).eng = s.eng from rfl]
  split
  · exact fetchWord_withRecords s h d o _ _
  · rfl

/-- Nor what a turn asks for. -/
theorem fetchTurn_withRecords (t : Turn) :
    fetchTurn t (s.withRecords h d o) = (fetchTurn t s).mapState fun u => u.withRecords h d o := by
  cases t with
  | host k a =>
    by_cases hcmd : ∃ w, a = .write 0 .word w
    · obtain ⟨w, rfl⟩ := hcmd
      exact fetchWord_withRecords s h d o .cmd w
    · simp only [fetchTurn, fetchHost_access _ (not_exists.1 hcmd), Fetched.mapState]
  | reset k m => rfl
  | sequencer k => exact fetchSequencer_withRecords s h d o
  | port k p w => exact fetchWord_withRecords s h d o p w

/-- The records do not decide what is fetched. -/
theorem fetch_withRecords :
    fetch (s.withRecords h d o) = (fetch s).mapState fun u => u.withRecords h d o := by
  have hfocus := focus_withRecords { s with turns := s.turns.tail } h d o (mover s)
  rw [fetch, fetch, show mover (s.withRecords h d o) = mover s from rfl]
  rw [show ({ s.withRecords h d o with turns := (s.withRecords h d o).turns.tail } : State) =
    State.withRecords { s with turns := s.turns.tail } h d o from rfl, hfocus,
    show (s.withRecords h d o).turns = s.turns from rfl]
  cases focus (mover s) { s with turns := s.turns.tail } with
  | none => rfl
  | some u =>
    cases s.turns with
    | nil => exact fetchSequencer_withRecords u h d o
    | cons t ts => exact fetchTurn_withRecords u h d o t

/-! ### Operations -/

/-- The answer to a trigger where one is scripted. -/
theorem busTrigger_scripted {s : State} {x : TrigAnswer} {rest : List TrigAnswer} (hs : s.trigScript = x :: rest)
    (bus : BusSel) (addr : BusAddr) :
    busTrigger bus addr s =
      (x, { s with trigScript := rest, history := s.history ++ [.trig s.inst bus addr x] }) := by
  rw [busTrigger, hs]
  rfl

/-- The answer to a read where one is scripted. -/
theorem busRead4_scripted {s : State} {x : ReadAnswer} {rest : List ReadAnswer} (hs : s.readScript = x :: rest)
    (bus : BusSel) (addr : BusAddr) :
    busRead4 bus addr s =
      (x, { s with readScript := rest, history := s.history ++ [.read s.inst bus addr x] }) := by
  rw [busRead4, hs]
  rfl

/-- A guarded step, where what it does under its guard agrees. -/
theorem sameNext_whenEnabled {c : Bool} {t t' : State} (ht : c = true → agree t t') :
    SameNext (whenEnabled c t) (whenEnabled c t') := by
  intro v hv
  obtain ⟨hc, rfl⟩ := whenEnabled_next.mp hv
  exact ⟨t', whenEnabled_next.mpr ⟨hc, rfl⟩, ht hc⟩

/-- An operation that always answers a next state. -/
theorem sameNext_next {t t' : State} (ht : agree t t') : SameNext (.next t) (.next t') := by
  intro v hv
  cases hv
  exact ⟨t', rfl, ht⟩

/-- A transaction to the engine's own device. -/
theorem sameNext_ite {c : Bool} {t t' : State} {r : Refusal} (ht : agree t t') :
    SameNext (if c then .next t else .refused r) (if c then .next t' else .refused r) := by
  cases c with
  | true => exact sameNext_next ht
  | false => intro v hv; cases hv

/-- A command does not depend on the records (R120 to R126). -/
theorem sameNext_command (body : Engine → Engine) :
    SameNext (.next (command body s)) (.next (command body (s.withRecords h d o))) := by
  apply sameNext_next
  cases hrun : s.eng.run with
  | true => rw [command_busy body hrun, command_busy body (s := s.withRecords h d o) hrun]; rfl
  | false => rw [command_accepted body hrun, command_accepted body (s := s.withRecords h d o) hrun]; rfl

variable {s}

/-- No operation depends on the records, where a scripted answer of each kind is left and F holds a frame wherever a
step reads it. -/
theorem exec_withRecords (hinv : EngineInv s.eng) (htrig : s.trigScript ≠ []) (hread : s.readScript ≠ []) (i : Instr) :
    SameNext (exec i s) (exec i (s.withRecords h d o)) := by
  obtain ⟨x, xs, hx⟩ := List.exists_cons_of_ne_nil htrig
  obtain ⟨y, ys, hy⟩ := List.exists_cons_of_ne_nil hread
  cases i with
  | init | acq | rdt | rdh
  | reservedCmd0 | reservedCmd5 | reservedCmd6 | reservedCmd7 | reservedCmd8 | reservedCmd9
  | reservedCmdA | reservedCmdB | reservedCmdC | reservedCmdD | reservedCmdE | reservedCmdF =>
    exact sameNext_command s h d o _
  | trigger a =>
    rw [exec, exec, execTrigger, execTrigger, busTrigger_scripted hx, busTrigger_scripted (s := s.withRecords h d o) hx]
    exact sameNext_ite rfl
  | read4 a =>
    rw [exec, exec, execRead4, execRead4, busRead4_scripted hy, busRead4_scripted (s := s.withRecords h d o) hy]
    exact sameNext_ite rfl
  | frameValid f | frameNotready01 f | frameNotready10 f | frameNotready11 f =>
    exact sameNext_whenEnabled fun _ => rfl
  | sTrig =>
    refine sameNext_whenEnabled fun _ => ?_
    rw [busTrigger_scripted hx, busTrigger_scripted (s := s.withRecords h d o) hx]
    rfl
  | sRead =>
    refine sameNext_whenEnabled fun _ => ?_
    rw [busRead4_scripted hy, busRead4_scripted (s := s.withRecords h d o) hy]
    rfl
  | sRetry =>
    refine sameNext_whenEnabled fun _ => ?_
    rw [busRead4_scripted (s := delay _ s) hy, busRead4_scripted (s := delay _ (s.withRecords h d o)) hy]
    rfl
  | sTimeout => exact sameNext_whenEnabled fun _ => rfl
  | sChk =>
    refine sameNext_whenEnabled fun hen => ?_
    obtain ⟨hrun, hstate⟩ := enabled_iff.mp hen
    obtain ⟨f, hf⟩ := Option.isSome_iff_exists.mp (hinv.frameHeld hrun (.inl hstate))
    rw [readFrame_held hf, readFrame_held (s := s.withRecords h d o) hf]
    rfl
  | sDec =>
    refine sameNext_whenEnabled fun hen => ?_
    obtain ⟨hrun, hstate⟩ := enabled_iff.mp hen
    obtain ⟨f, hf⟩ := Option.isSome_iff_exists.mp (hinv.frameHeld hrun (.inr (.inr hstate)))
    rw [readFrame_held hf, readFrame_held (s := s.withRecords h d o) hf]
    rfl
  | fStatus | fHcode | fTcode | fScaleh | fScalet | fDecode => exact sameNext_next rfl

/-- A register access does not depend on the records, but in the word that a read of no_value delivers. -/
theorem hostAccess_withRecords (a : HostAccess) : SameNext (hostAccess a s) (hostAccess a (s.withRecords h d o)) := by
  cases a with
  | read off size =>
    have hdeliver : agree (deliverRead (readReg s.eng off) s)
        (deliverRead (readReg s.eng off) (s.withRecords h d o)) := by
      cases readReg s.eng off <;> rfl
    exact sameNext_ite hdeliver
  | write off size v => exact sameNext_ite rfl

/-- A reset does not depend on the records. -/
theorem resetAt_withRecords (m : ResetMoment) : agree (resetAt m s) (resetAt m (s.withRecords h d o)) := by
  rw [resetAt_spec, resetAt_spec]
  rfl

/-- No step depends on the records, where a scripted answer of each kind is left. -/
theorem step_withRecords (hinv : Inv s) (htrig : s.trigScript ≠ []) (hread : s.readScript ≠ []) :
    SameNext (step s) (step (s.withRecords h d o)) := by
  rw [step, step, fetch_withRecords]
  by_cases hnone : fetch s = .noInstance
  · rw [hnone]
    intro t ht
    cases ht
  · obtain ⟨u, hu, hfetch⟩ := fetch_state rfl hnone
    obtain ⟨-, -, -, -, -, htrigu, hreadu, -⟩ := focus_spec hu
    obtain ⟨i, hi⟩ | ⟨a, ha⟩ | ⟨m, hm⟩ | hidle | ⟨r, hr⟩ := hfetch
    · rw [hi]
      exact exec_withRecords h d o (hinv.focus hu).focused (htrigu ▸ htrig) (hreadu ▸ hread) i
    · rw [ha]
      exact hostAccess_withRecords h d o a
    · rw [hm]
      exact sameNext_next (resetAt_withRecords h d o m)
    · rw [hidle]
      exact sameNext_next rfl
    · rw [hr]
      intro t ht
      cases ht

end

/-- Settles O55: the other state is the first one with other records. -/
theorem stepDependsOnOracleOnly : Obligations.StepDependsOnOracleOnly := by
  intro s s' t hinv hagree htrig hread hstep
  rw [eq_withRecords_of_agree hagree]
  exact step_withRecords _ _ _ hinv htrig hread t hstep

end Sys2Proof.Machine
end

section
/-! PROOFS. Runs of a cycle in which only its own sequencer moves (41_sequencer.md R151 to R153, 20_memory.md R74):
first the single steps, then the rounds of the retry loop, then whole cycles. -/

namespace Sys2Proof.Machine

open Sys2Proof

/-! ### Single steps -/

/-- One step of a run in which only one sequencer moves. -/
theorem run_step {n : Nat} {s t : State} (h : alone (n + 1) s) (hstep : step s = .next t) (hinst : t.inst = s.inst)
    (hparked : t.parked = s.parked) (hturns : t.turns = s.turns.tail) :
    Host.Core.run core (n + 1) s = Host.Core.run core n t ∧ alone n t := by
  have hcore : core.step s = .next t := hstep
  refine ⟨?_, alone_next h hinst hparked hturns⟩
  simp only [Host.Core.run, hcore]

/-- A run of no step. -/
theorem run_zero (s : State) : Host.Core.run core 0 s = .next s :=
  rfl

/-- With RUN = 0 a run changes no register and records nothing (R140). -/
theorem run_stopped {n : Nat} {s : State} (h : alone n s) (hrun : s.eng.run = false) :
    ∃ t, Host.Core.run core n s = .next t ∧ t.eng = s.eng ∧ t.history = s.history := by
  induction n generalizing s with
  | zero => exact ⟨s, run_zero s, rfl, rfl⟩
  | succ n ih =>
    have hstep : step s = .next { s with turns := s.turns.tail } :=
      step_of_fetchSequencer_idle (fetch_alone h) hrun
    obtain ⟨hr, hn⟩ := run_step h hstep rfl rfl rfl
    rw [hr]
    exact ih hn hrun

section
variable {n : Nat} {s : State} (hrun : s.eng.run = true)
include hrun

/-- R140: where only one sequencer moves and RUN = 1, the step is the one that STATE and LimitReached select. -/
theorem step_alone (h : alone (n + 1) s) {i : Instr}
    (hdec : decode (.seq (limitReached s.eng)) ((stateCode s.eng.state).setWidth 32) = .ok i) :
    step s = exec i { s with turns := s.turns.tail } :=
  step_of_fetchSequencer (fetch_alone h) hrun hdec

/-- R141: the first step of a cycle. -/
theorem run_trigger (h : alone (n + 1) s) (hstate : s.eng.state = .idle) : ∃ (r : TrigAnswer) (t : State),
    (∀ x rest, s.trigScript = x :: rest → r = x) ∧
    Host.Core.run core (n + 1) s = Host.Core.run core n t ∧ alone n t ∧ ∃ d, t = { s with
      turns := s.turns.tail
      trigScript := s.trigScript.tail
      draws := d
      history := s.history ++ [.trig s.inst s.eng.busref s.eng.addr r]
      eng := afterTrigger r s.eng } := by
  obtain ⟨r, d, hscript, hexec⟩ :=
    exec_sTrig (s := { s with turns := s.turns.tail }) (enabled_iff.mpr ⟨hrun, hstate⟩)
  have hstep := (step_alone hrun h (i := .sTrig) (by rw [hstate]; rfl)).trans hexec
  obtain ⟨hr, hn⟩ := run_step h hstep rfl rfl rfl
  exact ⟨r, _, hscript, hr, hn, d, rfl⟩

/-- R142: the first read of a cycle. -/
theorem run_read (h : alone (n + 1) s) (hstate : s.eng.state = .triggered) : ∃ (r : ReadAnswer) (t : State),
    (∀ x rest, s.readScript = x :: rest → r = x) ∧
    Host.Core.run core (n + 1) s = Host.Core.run core n t ∧ alone n t ∧ ∃ d, t = { s with
      turns := s.turns.tail
      readScript := s.readScript.tail
      draws := d
      history := s.history ++ [.read s.inst s.eng.busref s.eng.addr r]
      eng := afterRead r s.eng } := by
  obtain ⟨r, d, hscript, hexec⟩ :=
    exec_sRead (s := { s with turns := s.turns.tail }) (enabled_iff.mpr ⟨hrun, hstate⟩)
  have hstep := (step_alone hrun h (i := .sRead) (by rw [hstate]; rfl)).trans hexec
  obtain ⟨hr, hn⟩ := run_step h hstep rfl rfl rfl
  exact ⟨r, _, hscript, hr, hn, d, rfl⟩

/-- R143: the status check of the frame held. -/
theorem run_check (h : alone (n + 1) s) (hstate : s.eng.state = .reading) {f : Frame} (hf : s.eng.frame = some f) :
    ∃ t, Host.Core.run core (n + 1) s = Host.Core.run core n t ∧ alone n t ∧
      t = { s with turns := s.turns.tail, eng := gateFrame f s.eng } := by
  have hexec := exec_sChk_held (s := { s with turns := s.turns.tail }) (enabled_iff.mpr ⟨hrun, hstate⟩) hf
  have hstep := (step_alone hrun h (i := .sChk) (by rw [hstate]; rfl)).trans hexec
  obtain ⟨hr, hn⟩ := run_step h hstep rfl rfl rfl
  exact ⟨_, hr, hn, rfl⟩

/-! ### Rounds of the retry loop, from Reading -/

/-- R143, R147: a valid frame is checked and decoded. -/
theorem run_check_decode (h : alone (n + 2) s) (hstate : s.eng.state = .reading) {f : Frame}
    (hf : s.eng.frame = some f) (hvalid : parseStatus f.b0 = Config.statusValid) :
    ∃ t, Host.Core.run core (n + 2) s = Host.Core.run core n t ∧ alone n t ∧ t = { s with
      turns := s.turns.tail.tail
      eng := decodeFrameRegs s.cfg.fpEval f { s.eng with frame := some f, state := .ready } } := by
  obtain ⟨u, hr, hu, rfl⟩ := run_check hrun h hstate hf
  rw [gateFrame_of_valid hvalid] at hr hu
  have hexec := exec_sDec_held (f := f)
    (s := { s with turns := s.turns.tail.tail, eng := { s.eng with frame := some f, state := .ready } })
    (enabled_iff.mpr ⟨hrun, rfl⟩) rfl
  have hstep := (step_alone (by exact hrun) hu (i := .sDec) rfl).trans hexec
  obtain ⟨hr', hn⟩ := run_step hu hstep rfl rfl rfl
  exact ⟨_, hr.trans hr', hn, rfl⟩

/-- R143, R145: a frame that is not ready, where the limit is reached, ends in the timeout. -/
theorem run_check_timeout (h : alone (n + 2) s) (hstate : s.eng.state = .reading) {f : Frame}
    (hf : s.eng.frame = some f) (hnot : parseStatus f.b0 ≠ Config.statusValid) (hlim : limitReached s.eng = true) :
    ∃ t, Host.Core.run core (n + 2) s = Host.Core.run core n t ∧ alone n t ∧ t = { s with
      turns := s.turns.tail.tail
      eng := raise .notReadyTimeout { s.eng with frame := some f, state := .notReady } } := by
  obtain ⟨u, hr, hu, rfl⟩ := run_check hrun h hstate hf
  rw [gateFrame_of_notValid hnot] at hr hu
  have hlim' : limitReached { s.eng with frame := some f, state := .notReady } = true := hlim
  have hexec := (exec_sTimeout_next
    (s := { s with turns := s.turns.tail.tail, eng := { s.eng with frame := some f, state := .notReady } })).mpr
    ⟨Bool.and_eq_true_iff.mpr ⟨enabled_iff.mpr ⟨hrun, rfl⟩, hlim'⟩, rfl⟩
  have hstep := (step_alone (by exact hrun) hu (i := .sTimeout) (by rw [hlim']; rfl)).trans hexec
  obtain ⟨hr', hn⟩ := run_step hu hstep rfl rfl rfl
  exact ⟨_, hr.trans hr', hn, rfl⟩

/-- R143, R144: a frame that is not ready, where the limit is not reached, is followed by a delay and a read. -/
theorem run_check_retry (h : alone (n + 2) s) (hstate : s.eng.state = .reading) {f : Frame}
    (hf : s.eng.frame = some f) (hnot : parseStatus f.b0 ≠ Config.statusValid) (hlim : limitReached s.eng = false) :
    ∃ (r : ReadAnswer) (t : State), (∀ x rest, s.readScript = x :: rest → r = x) ∧
    Host.Core.run core (n + 2) s = Host.Core.run core n t ∧ alone n t ∧ ∃ d, t = { s with
      turns := s.turns.tail.tail
      readScript := s.readScript.tail
      draws := d
      history := s.history ++ [.delay s.inst Config.retryDelayMs, .read s.inst s.eng.busref s.eng.addr r]
      eng := afterRead r { s.eng with
        frame := some f, state := .notReady, retryCnt := retryCntNext s.eng.retryCnt } } := by
  obtain ⟨u, hr, hu, rfl⟩ := run_check hrun h hstate hf
  rw [gateFrame_of_notValid hnot] at hr hu
  have hlim' : limitReached { s.eng with frame := some f, state := .notReady } = false := hlim
  obtain ⟨r, d, hscript, hexec⟩ := exec_sRetry
    (s := { s with turns := s.turns.tail.tail, eng := { s.eng with frame := some f, state := .notReady } })
    (enabled_iff.mpr ⟨hrun, rfl⟩) hlim'
  have hstep := (step_alone (by exact hrun) hu (i := .sRetry) (by rw [hlim']; rfl)).trans hexec
  obtain ⟨hr', hn⟩ := run_step hu hstep rfl rfl rfl
  exact ⟨r, _, hscript, hr.trans hr', hn, d, rfl⟩

end

end Sys2Proof.Machine
end

section
/-! PROOFS. Whole cycles: whatever the oracle answers, and for scripted frames (41_sequencer.md R151 to R153,
20_memory.md R74). -/

namespace Sys2Proof.Machine

open Sys2Proof

/-! ### Whatever the oracle answers -/

section
/-! The counts of reads and triggers, event by event. -/

variable (inst : Nat) (bus : BusSel) (addr : BusAddr) (evs : List BusEvent)

@[simp] theorem countP_isRead_read (r : ReadAnswer) :
    (BusEvent.read inst bus addr r :: evs).countP BusEvent.isRead = evs.countP BusEvent.isRead + 1 :=
  List.countP_cons_of_pos rfl

@[simp] theorem countP_isRead_trig (r : TrigAnswer) :
    (BusEvent.trig inst bus addr r :: evs).countP BusEvent.isRead = evs.countP BusEvent.isRead :=
  List.countP_cons_of_neg Bool.false_ne_true

@[simp] theorem countP_isRead_delay (ms : Nat) :
    (BusEvent.delay inst ms :: evs).countP BusEvent.isRead = evs.countP BusEvent.isRead :=
  List.countP_cons_of_neg Bool.false_ne_true

@[simp] theorem countP_isTrig_trig (r : TrigAnswer) :
    (BusEvent.trig inst bus addr r :: evs).countP BusEvent.isTrig = evs.countP BusEvent.isTrig + 1 :=
  List.countP_cons_of_pos rfl

@[simp] theorem countP_isTrig_read (r : ReadAnswer) :
    (BusEvent.read inst bus addr r :: evs).countP BusEvent.isTrig = evs.countP BusEvent.isTrig :=
  List.countP_cons_of_neg Bool.false_ne_true

@[simp] theorem countP_isTrig_delay (ms : Nat) :
    (BusEvent.delay inst ms :: evs).countP BusEvent.isTrig = evs.countP BusEvent.isTrig :=
  List.countP_cons_of_neg Bool.false_ne_true

end

/-- R74: a tail of a cycle's history holds no trigger. -/
theorem countP_isTrig_of_cycleTail {inst : Nat} {bus : BusSel} {addr : BusAddr} {last : ReadAnswer}
    {evs : List BusEvent} (h : cycleTail inst bus addr last evs = true) : evs.countP BusEvent.isTrig = 0 := by
  induction last, evs using cycleTail.induct with
  | case1 last => rfl
  | case2 last i ms j b a r rest ih =>
    simp only [cycleTail, Bool.and_eq_true] at h
    rw [countP_isTrig_delay, countP_isTrig_read, ih h.2]
  | case3 last evs hnil hpair => simp [cycleTail] at h

/-- R74: after a frame that was not ready, a delay and a read go before the rest of the tail. -/
theorem cycleTail_cons {inst : Nat} {bus : BusSel} {addr : BusAddr} {last r : ReadAnswer} {rest : List BusEvent}
    (hlast : notReadyAnswer last = true) (hrest : cycleTail inst bus addr r rest = true) :
    cycleTail inst bus addr last (.delay inst Config.retryDelayMs :: .read inst bus addr r :: rest) = true := by
  simp [cycleTail, hlast, hrest]

/-- R74: after the trigger, a read goes before the tail. -/
theorem cycleShape_cons {inst : Nat} {bus : BusSel} {addr : BusAddr} {r : ReadAnswer} {rest : List BusEvent}
    (hrest : cycleTail inst bus addr r rest = true) :
    cycleShape inst bus addr (.trig inst bus addr .ok :: .read inst bus addr r :: rest) = true := by
  simp [cycleShape, hrest]

/-- R74: a trigger by itself. -/
theorem cycleShape_trig (inst : Nat) (bus : BusSel) (addr : BusAddr) (r : TrigAnswer) :
    cycleShape inst bus addr [.trig inst bus addr r] = true := by
  simp [cycleShape]

/-- R92: the status in words, as the check of a read's answer. -/
theorem notReadyAnswer_ok {f : Frame} (h : parseStatus f.b0 ≠ Config.statusValid) : notReadyAnswer (.ok f) = true :=
  bne_iff_ne.mpr h

/-- How many retries the limit leaves (R148). -/
def retriesLeft (e : Engine) : Nat := e.retryLimit.toNat - e.retryCnt.toNat

/-- What `n` steps from Reading in `s`, after a read answered `last`, add to the history: a tail of a cycle's history;
with a finite limit and steps enough for the retries left, the cycle has ended. -/
structure ReadingRun (n : Nat) (s : State) (last : ReadAnswer) (t : State) (evs : List BusEvent) : Prop where
  history : t.history = s.history ++ evs
  shape : cycleTail s.inst s.eng.busref s.eng.addr last evs = true
  ends : s.eng.retryLimit ≠ Config.retryUnbounded → 2 * retriesLeft s.eng + 2 ≤ n →
    t.eng.run = false ∧ t.eng.done = true ∧ evs.countP BusEvent.isRead ≤ retriesLeft s.eng

/-- A run that stands still after a failed read, or after the end of a cycle. -/
theorem run_stopped_done {n : Nat} {s : State} (h : alone n s) (hrun : s.eng.run = false) (hdone : s.eng.done = true) :
    ∃ t, Host.Core.run core n s = .next t ∧ t.eng.run = false ∧ t.eng.done = true ∧ t.history = s.history := by
  obtain ⟨t, hr, heng, hhist⟩ := run_stopped h hrun
  exact ⟨t, hr, by rw [heng]; exact hrun, by rw [heng]; exact hdone, hhist⟩

/-- R148: a retry below a finite limit takes one of the retries left. -/
theorem retriesLeft_retry {e : Engine} (hlim : limitReached e = false)
    (hfinite : e.retryLimit ≠ Config.retryUnbounded) :
    e.retryLimit.toNat - (retryCntNext e.retryCnt).toNat + 1 = retriesLeft e := by
  have hlt := (limitReached_false_iff.mp hlim).resolve_left hfinite
  have := e.retryLimit.isLt
  rw [retryCntNext_toNat, retriesLeft]
  omega

/-- R74, R153: from Reading, whatever the oracle answers. -/
theorem run_reading (n : Nat) {s : State} {f : Frame} (h : alone n s) (hrun : s.eng.run = true)
    (hstate : s.eng.state = .reading) (hf : s.eng.frame = some f) :
    ∃ t evs, Host.Core.run core n s = .next t ∧ ReadingRun n s (.ok f) t evs := by
  induction n using Nat.strong_induction_on generalizing s f with
  | _ n ih =>
  match n with
  | 0 => exact ⟨s, [], run_zero s, by simp, rfl, fun _ hn => absurd hn (by omega)⟩
  | 1 =>
    obtain ⟨t, hr, -, rfl⟩ := run_check hrun h hstate hf
    exact ⟨_, [], hr.trans (run_zero _), by simp, rfl, fun _ hn => absurd hn (by omega)⟩
  | n + 2 =>
    by_cases hvalid : parseStatus f.b0 = Config.statusValid
    · obtain ⟨u, hr, hu, rfl⟩ := run_check_decode hrun h hstate hf hvalid
      obtain ⟨t, hr', hstop, hdone, hhist⟩ := run_stopped_done hu rfl rfl
      exact ⟨t, [], hr.trans hr', by simpa using hhist, rfl, fun _ _ => ⟨hstop, hdone, Nat.zero_le _⟩⟩
    · cases hlim : limitReached s.eng with
      | true =>
        obtain ⟨u, hr, hu, rfl⟩ := run_check_timeout hrun h hstate hf hvalid hlim
        obtain ⟨t, hr', hstop, hdone, hhist⟩ := run_stopped_done hu rfl rfl
        exact ⟨t, [], hr.trans hr', by simpa using hhist, rfl, fun _ _ => ⟨hstop, hdone, Nat.zero_le _⟩⟩
      | false =>
        obtain ⟨r, u, -, hr, hu, d, rfl⟩ := run_check_retry hrun h hstate hf hvalid hlim
        have hnot := notReadyAnswer_ok hvalid
        cases r with
        | err c =>
          obtain ⟨t, hr', hstop, hdone, hhist⟩ := run_stopped_done hu rfl rfl
          refine ⟨t, _, hr.trans hr', hhist, cycleTail_cons hnot rfl, fun hfinite _ => ⟨hstop, hdone, ?_⟩⟩
          rw [← retriesLeft_retry hlim hfinite]
          simp [BusEvent.isRead]
        | ok g =>
          obtain ⟨t, evs, hr', hhist, hshape, hends⟩ := ih n (by omega) hu hrun rfl rfl
          refine ⟨t, _, hr.trans hr', hhist.trans (List.append_assoc _ _ _), cycleTail_cons hnot hshape,
            fun hfinite hn => ?_⟩
          have hleft := retriesLeft_retry hlim hfinite
          have hbound : 2 * (s.eng.retryLimit.toNat - (retryCntNext s.eng.retryCnt).toNat) + 2 ≤ n := by omega
          obtain ⟨hstop, hdone, hreads⟩ := hends hfinite hbound
          refine ⟨hstop, hdone, ?_⟩
          rw [← hleft]
          simp only [List.cons_append, List.nil_append, countP_isRead_delay, countP_isRead_read]
          exact Nat.succ_le_succ hreads

/-- R74, R153: from Triggered, whatever the oracle answers. -/
theorem run_triggered (n : Nat) {s : State} (h : alone n s) (hrun : s.eng.run = true)
    (hstate : s.eng.state = .triggered) :
    ∃ t evs, Host.Core.run core n s = .next t ∧ t.history = s.history ++ evs ∧
      cycleShape s.inst s.eng.busref s.eng.addr (.trig s.inst s.eng.busref s.eng.addr .ok :: evs) = true ∧
      evs.countP BusEvent.isTrig = 0 ∧
      (s.eng.retryLimit ≠ Config.retryUnbounded → 2 * retriesLeft s.eng + 3 ≤ n →
        t.eng.run = false ∧ t.eng.done = true ∧ evs.countP BusEvent.isRead ≤ retriesLeft s.eng + 1) := by
  match n with
  | 0 => exact ⟨s, [], run_zero s, by simp, cycleShape_trig _ _ _ _, rfl, fun _ hn => absurd hn (by omega)⟩
  | n + 1 =>
    obtain ⟨r, u, -, hr, hu, d, rfl⟩ := run_read hrun h hstate
    cases r with
    | err c =>
      obtain ⟨t, hr', hstop, hdone, hhist⟩ := run_stopped_done hu rfl rfl
      exact ⟨t, _, hr.trans hr', hhist, cycleShape_cons rfl, rfl, fun _ _ => ⟨hstop, hdone, by simp [BusEvent.isRead]⟩⟩
    | ok f =>
      obtain ⟨t, evs, hr', hhist, hshape, hends⟩ := run_reading n hu hrun rfl rfl
      refine ⟨t, _, hr.trans hr', hhist.trans (List.append_assoc _ _ _), cycleShape_cons hshape, ?_,
        fun hfinite hn => ?_⟩
      · exact (countP_isTrig_read _ _ _ _ _).trans (countP_isTrig_of_cycleTail hshape)
      · have hbound : 2 * retriesLeft s.eng + 2 ≤ n := by omega
        obtain ⟨hstop, hdone, hreads⟩ := hends hfinite hbound
        exact ⟨hstop, hdone, (countP_isRead_read _ _ _ _ _).trans_le (Nat.succ_le_succ hreads)⟩

/-- R74, R153: a whole cycle, whatever the oracle answers. -/
theorem run_cycle (n : Nat) {s : State} (h : alone n s) (hrun : s.eng.run = true) (hstate : s.eng.state = .idle) :
    ∃ t evs, Host.Core.run core n s = .next t ∧ t.history = s.history ++ evs ∧
      cycleShape s.inst s.eng.busref s.eng.addr evs = true ∧
      (s.eng.retryLimit ≠ Config.retryUnbounded → 2 * retriesLeft s.eng + 4 ≤ n → t.eng.run = false ∧
        t.eng.done = true ∧ evs.countP BusEvent.isTrig = 1 ∧ evs.countP BusEvent.isRead ≤ retriesLeft s.eng + 1) := by
  match n with
  | 0 => exact ⟨s, [], run_zero s, by simp, rfl, fun _ hn => absurd hn (by omega)⟩
  | n + 1 =>
    obtain ⟨r, u, -, hr, hu, d, rfl⟩ := run_trigger hrun h hstate
    cases r with
    | err c =>
      obtain ⟨t, hr', hstop, hdone, hhist⟩ := run_stopped_done hu rfl rfl
      exact ⟨t, _, hr.trans hr', hhist, cycleShape_trig _ _ _ _,
        fun _ _ => ⟨hstop, hdone, rfl, by simp [BusEvent.isRead]⟩⟩
    | ok =>
      obtain ⟨t, evs, hr', hhist, hshape, htrig, hends⟩ := run_triggered n hu hrun rfl
      refine ⟨t, _, hr.trans hr', hhist.trans (List.append_assoc _ _ _), hshape, fun hfinite hn => ?_⟩
      have hbound : 2 * retriesLeft s.eng + 3 ≤ n := by omega
      obtain ⟨hstop, hdone, hreads⟩ := hends hfinite hbound
      exact ⟨hstop, hdone, (countP_isTrig_trig _ _ _ _ _).trans (congrArg (· + 1) htrig),
        (countP_isRead_trig _ _ _ _ _).trans_le hreads⟩

/-- Settles O60: the run of `n` steps is the one of `run_cycle`. -/
theorem cycleHistoryShape : Obligations.CycleHistoryShape := by
  intro s t n halone hrun hstate hnext
  obtain ⟨t', evs, hr, hhist, hshape, -⟩ := run_cycle n halone hrun hstate
  obtain rfl : t' = t := by
    have hsame := hr.symm.trans hnext
    cases hsame
    rfl
  exact ⟨evs, hhist, hshape⟩

/-- Settles O58: a cycle starts with RETRY_CNT = 0, so the retries left are the limit. -/
theorem boundedCycleEnds : Obligations.BoundedCycleEnds := by
  intro s n halone hinv hrun hstate hfinite hn
  obtain ⟨t, evs, hr, hhist, -, hends⟩ := run_cycle n halone hrun hstate
  have hleft : retriesLeft s.eng = s.eng.retryLimit.toNat := by
    rw [retriesLeft, hinv.freshCount hrun (.inl hstate)]
    rfl
  rw [hleft] at hends
  obtain ⟨hstop, hdone, htrig, hreads⟩ := hends hfinite hn
  exact ⟨t, evs, hr, hstop, hdone, hhist, htrig, hreads⟩

end Sys2Proof.Machine
end

section
/-! PROOFS. Cycles of a device that answers scripted frames (41_sequencer.md R148, R151 to R153). -/

namespace Sys2Proof.Machine

open Sys2Proof

/-- R144: the reads of a cycle whose first frame is not ready are that read, a delay, and the reads after it. -/
theorem readEvents_cons (inst : Nat) (bus : BusSel) (addr : BusAddr) (f : Frame) (bad : List Frame) (last : Frame) :
    readEvents inst bus addr (f :: bad) last =
      .read inst bus addr (.ok f) :: .delay inst Config.retryDelayMs :: readEvents inst bus addr bad last :=
  rfl

/-- R148: the limit leaves room for `k` retries more. -/
def retriesAllowed (e : Engine) (k : Nat) : Prop :=
  e.retryLimit = Config.retryUnbounded ∨ e.retryCnt.toNat + k ≤ e.retryLimit.toNat

/-- R148: where a retry is allowed the limit is not reached. -/
theorem limitReached_false_of_allowed {e : Engine} {k : Nat} (h : retriesAllowed e (k + 1)) : limitReached e = false :=
  limitReached_false_iff.mpr (h.imp_right (by omega))

/-- R144: a retry uses one of the retries allowed. -/
theorem retriesAllowed_retry {e : Engine} {k : Nat} (h : retriesAllowed e (k + 1)) :
    e.retryLimit = Config.retryUnbounded ∨ (retryCntNext e.retryCnt).toNat + k ≤ e.retryLimit.toNat := by
  refine h.imp_right fun hk => ?_
  rw [retryCntNext_toNat]
  omega

/-- R144: from Reading on a frame that is not ready, the reads of further frames that are not ready and of a last one;
`n` more steps are left to the run. -/
theorem run_retries (n : Nat) {last : Frame} {rr : List ReadAnswer} (bad : List Frame) {s : State} {f : Frame}
    (h : alone (2 * (bad.length + 1) + n) s) (hrun : s.eng.run = true) (hstate : s.eng.state = .reading)
    (hf : s.eng.frame = some f) (hbad : ∀ g ∈ f :: bad, parseStatus g.b0 ≠ Config.statusValid)
    (hscript : s.readScript = bad.map .ok ++ .ok last :: rr) (hlim : retriesAllowed s.eng (bad.length + 1)) :
    ∃ t, Host.Core.run core (2 * (bad.length + 1) + n) s = Host.Core.run core n t ∧ alone n t ∧ ∃ ts d c,
      c.toNat = min (s.eng.retryCnt.toNat + (bad.length + 1)) 0xFFFF ∧ t = { s with
        turns := ts
        draws := d
        readScript := rr
        history := s.history ++
          .delay s.inst Config.retryDelayMs :: readEvents s.inst s.eng.busref s.eng.addr bad last
        eng := { s.eng with state := .reading, frame := some last, retryCnt := c } } := by
  induction bad generalizing s f with
  | nil =>
    rw [show 2 * (([] : List Frame).length + 1) + n = n + 2 by simp; omega] at h ⊢
    obtain ⟨r, t, hr, hstep, hn, d, rfl⟩ := run_check_retry hrun h hstate hf (hbad f List.mem_cons_self)
      (limitReached_false_of_allowed hlim)
    obtain rfl := hr _ _ hscript
    refine ⟨_, hstep, hn, s.turns.tail.tail, d, _, retryCntNext_toNat _, ?_⟩
    rw [hscript]
    rfl
  | cons b bad ih =>
    rw [show 2 * ((b :: bad).length + 1) + n = 2 * (bad.length + 1) + n + 2 by simp; omega] at h ⊢
    obtain ⟨r, u, hr, hstep, hu, d, rfl⟩ := run_check_retry hrun h hstate hf (hbad f List.mem_cons_self)
      (limitReached_false_of_allowed hlim)
    obtain rfl := hr _ _ hscript
    obtain ⟨t, hrest, hn, ts, d', c, hc, rfl⟩ := ih hu hrun rfl rfl (fun g hg => hbad g (List.mem_cons_of_mem _ hg))
      (by rw [hscript]; rfl) (retriesAllowed_retry hlim)
    refine ⟨_, hstep.trans hrest, hn, ts, d', c, ?_, ?_⟩
    · refine hc.trans ?_
      show min ((retryCntNext s.eng.retryCnt).toNat + (bad.length + 1)) 0xFFFF = _
      rw [retryCntNext_toNat, List.length_cons]
      omega
    · simp only [afterRead, readEvents_cons, List.append_assoc]
      rfl

/-- R142, R144: from Triggered, the reads of frames that are not ready and of a last one. -/
theorem run_reads (n : Nat) {last : Frame} {rr : List ReadAnswer} {bad : List Frame} {s : State}
    (h : alone (2 * bad.length + n + 1) s) (hrun : s.eng.run = true) (hstate : s.eng.state = .triggered)
    (hbad : ∀ g ∈ bad, parseStatus g.b0 ≠ Config.statusValid)
    (hscript : s.readScript = bad.map .ok ++ .ok last :: rr) (hlim : retriesAllowed s.eng bad.length) :
    ∃ t, Host.Core.run core (2 * bad.length + n + 1) s = Host.Core.run core n t ∧ alone n t ∧ ∃ ts d c,
      c.toNat = min (s.eng.retryCnt.toNat + bad.length) 0xFFFF ∧ t = { s with
        turns := ts
        draws := d
        readScript := rr
        history := s.history ++ readEvents s.inst s.eng.busref s.eng.addr bad last
        eng := { s.eng with state := .reading, frame := some last, retryCnt := c } } := by
  cases bad with
  | nil =>
    rw [show 2 * ([] : List Frame).length + n + 1 = n + 1 by simp] at h ⊢
    obtain ⟨r, u, hr, hstep, hu, d, rfl⟩ := run_read hrun h hstate
    obtain rfl := hr _ _ hscript
    refine ⟨_, hstep, hu, s.turns.tail, d, s.eng.retryCnt, ?_, ?_⟩
    · have := s.eng.retryCnt.isLt
      rw [List.length_nil]
      omega
    · rw [hscript]
      rfl
  | cons b bad =>
    obtain ⟨r, u, hr, hstep, hu, d, rfl⟩ := run_read hrun h hstate
    obtain rfl := hr _ _ hscript
    obtain ⟨t, hrest, hn, ts, d', c, hc, rfl⟩ :=
      run_retries n bad (f := b) hu hrun rfl rfl hbad (by rw [hscript]; rfl) hlim
    refine ⟨_, hstep.trans hrest, hn, ts, d', c, hc, ?_⟩
    simp only [afterRead, readEvents_cons, List.append_assoc]
    rfl

/-- R141 to R144: from the start of a cycle, an accepted trigger and the reads. -/
theorem run_trigger_reads (n : Nat) {last : Frame} {tr : List TrigAnswer} {rr : List ReadAnswer} {bad : List Frame}
    {s : State} (h : alone (2 * bad.length + n + 2) s) (hrun : s.eng.run = true) (hstate : s.eng.state = .idle)
    (hbad : ∀ g ∈ bad, parseStatus g.b0 ≠ Config.statusValid) (htrig : s.trigScript = .ok :: tr)
    (hscript : s.readScript = bad.map .ok ++ .ok last :: rr) (hlim : retriesAllowed s.eng bad.length) :
    ∃ t, Host.Core.run core (2 * bad.length + n + 2) s = Host.Core.run core n t ∧ alone n t ∧ ∃ ts d c,
      c.toNat = min (s.eng.retryCnt.toNat + bad.length) 0xFFFF ∧ t = { s with
        turns := ts
        draws := d
        trigScript := tr
        readScript := rr
        history := s.history ++ .trig s.inst s.eng.busref s.eng.addr .ok ::
          readEvents s.inst s.eng.busref s.eng.addr bad last
        eng := { s.eng with state := .reading, frame := some last, retryCnt := c } } := by
  obtain ⟨r, u, hr, hstep, hu, d, rfl⟩ := run_trigger hrun h hstate
  obtain rfl := hr _ _ htrig
  obtain ⟨t, hrest, hn, ts, d', c, hc, rfl⟩ := run_reads n hu hrun rfl hbad hscript hlim
  refine ⟨_, hstep.trans hrest, hn, ts, d', c, hc, ?_⟩
  simp only [afterTrigger, List.append_assoc, htrig]
  rfl

/-- R150: VAL after the decode step, by the command. -/
theorem decodeFrameRegs_val (ev : FpEval) (f : Frame) (e : Engine) :
    (decodeFrameRegs ev f e).val = match e.op with
      | .acq => e.val
      | .rdt => (decodeFrameRegs ev f e).temp
      | .rdh => (decodeFrameRegs ev f e).hum := by
  rw [decodeFrameRegs_eq]

/-- Settles O56: the trigger and the reads, then the check and the decoding of the valid frame. -/
theorem notReadyThenValidCycle : Obligations.NotReadyThenValidCycle := by
  intro s bad good tr rr halone hrun hstate hcnt htrig hscript hbad hgood hlimit
  have hlim : retriesAllowed s.eng bad.length := hlimit.imp_right fun h => by
    rw [hcnt]
    exact (Nat.zero_add _).trans_le h
  obtain ⟨u, hr, hu, ts, d, c, hc, rfl⟩ := run_trigger_reads 2 halone hrun hstate hbad htrig hscript hlim
  obtain ⟨t, hr', -, rfl⟩ := run_check_decode (n := 0) (by exact hrun) hu rfl rfl hgood
  refine ⟨_, hr.trans (hr'.trans (run_zero _)), ?_⟩
  have hcount : c.toNat = min bad.length 0xFFFF := by
    rw [hc, hcnt, BitVec.toNat_ofNat, Nat.zero_mod, Nat.zero_add]
  exact ⟨rfl, rfl, rfl, rfl, rfl, rfl, rfl, rfl, rfl, hcount, rfl, rfl, decodeFrameRegs_val ..⟩

/-- Settles O57: the trigger and the reads, then the check of the last frame and the timeout. -/
theorem neverReadyCycle : Obligations.NeverReadyCycle := by
  intro s bad last tr rr halone hrun hstate hcnt htrig hscript hbad hlast hfinite hlen
  have hlim : retriesAllowed s.eng bad.length := .inr (by rw [hcnt]; exact ((Nat.zero_add _).trans hlen).le)
  obtain ⟨u, hr, hu, ts, d, c, hc, rfl⟩ := run_trigger_reads 2 halone hrun hstate hbad htrig hscript hlim
  have hlimit : c = s.eng.retryLimit := by
    apply BitVec.eq_of_toNat_eq
    have := s.eng.retryLimit.isLt
    rw [hc, hcnt, hlen, BitVec.toNat_ofNat]
    omega
  obtain ⟨t, hr', -, rfl⟩ := run_check_timeout (n := 0) (by exact hrun) hu rfl rfl hlast
    (limitReached_iff.mpr ⟨hfinite, hlimit ▸ le_rfl⟩)
  refine ⟨_, hr.trans (hr'.trans (run_zero _)), ?_⟩
  rw [raise_notReadyTimeout_eq]
  exact ⟨rfl, rfl, rfl, rfl, rfl, rfl, rfl, rfl, hlimit, rfl, rfl, rfl⟩

/-! ### Without a bound -/

/-- R153: from Reading without a bound, as long as the frames are not ready. -/
theorem run_unbounded (bad : List Frame) {n : Nat} {s : State} {f : Frame} {rr : List ReadAnswer} (h : alone n s)
    (hrun : s.eng.run = true) (hstate : s.eng.state = .reading) (hf : s.eng.frame = some f)
    (hunbounded : s.eng.retryLimit = Config.retryUnbounded)
    (hbad : ∀ g ∈ f :: bad, parseStatus g.b0 ≠ Config.statusValid)
    (hscript : s.readScript = bad.map .ok ++ rr) (hn : n ≤ 2 * bad.length + 1) :
    ∃ t, Host.Core.run core n s = .next t ∧ t.eng.run = true ∧ t.eng.done = s.eng.done := by
  induction bad generalizing n s f with
  | nil =>
    match n with
    | 0 => exact ⟨s, run_zero s, hrun, rfl⟩
    | 1 =>
      obtain ⟨t, hr, -, rfl⟩ := run_check hrun h hstate hf
      exact ⟨_, hr.trans (run_zero _), hrun, rfl⟩
    | n + 2 => simp at hn
  | cons b bad ih =>
    match n with
    | 0 => exact ⟨s, run_zero s, hrun, rfl⟩
    | 1 =>
      obtain ⟨t, hr, -, rfl⟩ := run_check hrun h hstate hf
      exact ⟨_, hr.trans (run_zero _), hrun, rfl⟩
    | n + 2 =>
      obtain ⟨r, u, hr, hstep, hu, d, rfl⟩ := run_check_retry hrun h hstate hf (hbad f List.mem_cons_self)
        (limitReached_false_iff.mpr (.inl hunbounded))
      obtain rfl := hr _ _ hscript
      rw [List.length_cons] at hn
      obtain ⟨t, hrest, hruns, hdone⟩ := ih hu hrun rfl rfl hunbounded (fun g hg => hbad g (List.mem_cons_of_mem _ hg))
        (by rw [hscript]; rfl) (by omega)
      exact ⟨t, hstep.trans hrest, hruns, hdone⟩

/-- Settles O59: the trigger and the first read, then the loop without a bound. -/
theorem unboundedCycleRunsOn : Obligations.UnboundedCycleRunsOn := by
  intro s bad tr rr n halone hrun hstate hunbounded htrig hscript hbad hn
  match n with
  | 0 => exact ⟨s, run_zero s, hrun, rfl⟩
  | n + 1 =>
    obtain ⟨r, u, hr, hstep, hu, d, rfl⟩ := run_trigger hrun halone hstate
    obtain rfl := hr _ _ htrig
    match n, bad with
    | 0, _ => exact ⟨_, hstep.trans (run_zero _), hrun, rfl⟩
    | n + 1, [] => simp at hn
    | n + 1, b :: bad =>
      obtain ⟨r, v, hr', hstep', hv, d', rfl⟩ := run_read (by exact hrun) hu rfl
      obtain rfl := hr' _ _ hscript
      rw [List.length_cons] at hn
      obtain ⟨t, hrest, hruns, hdone⟩ := run_unbounded bad (f := b) hv hrun rfl rfl hunbounded hbad
        (congrArg List.tail hscript) (by omega)
      exact ⟨t, hstep.trans (hstep'.trans hrest), hruns, hdone⟩

end Sys2Proof.Machine
end

section
/-! PROOFS. The value of a binary32 pattern (30_encoding.md R105) and RN32 as rounding to the nearest one, ties to even
(42_decoder_scaler.md R176). -/

namespace Sys2Proof.Machine

open Sys2Proof

/-! ### Patterns and their values -/

/-- R105: sign, significand and exponent of any finite pattern. -/
theorem b32Value_eq (x : B32) : b32Value x =
    (if x.getLsbD 31 then -1 else 1) * (b32Significand x : ℚ) * (2 : ℚ) ^ ((b32Scale x : ℤ) - 150) := by
  have hsign : ((if x.getLsbD 31 then -(b32Significand x : ℤ) else (b32Significand x : ℤ) : ℤ) : ℚ) =
      (if x.getLsbD 31 then -1 else 1) * (b32Significand x : ℚ) := by
    split <;> push_cast <;> ring
  rw [← hsign, b32Value, b32Ratio, Ratio.toRat]
  split
  · rename_i hbig
    rw [show (b32Scale x : ℤ) - 150 = ((b32Scale x - 150 : Nat) : ℤ) by omega, zpow_natCast]
    push_cast
    ring
  · rename_i hsmall
    rw [show (b32Scale x : ℤ) - 150 = -((150 - b32Scale x : Nat) : ℤ) by omega, zpow_neg, zpow_natCast]
    push_cast
    rw [div_eq_mul_inv]

/-- Settles O36: a biased exponent above 0 makes the significand 2^23 plus the fraction. -/
theorem binary32Value : Obligations.Binary32Value := by
  intro x hpos _
  rw [b32Value_eq, b32Significand, b32Scale, if_neg hpos.ne', if_neg hpos.ne',
    show (b32Exp x : ℤ) - 150 = ((b32Exp x : ℤ) - 127) - 23 by ring, zpow_sub₀ two_ne_zero]
  push_cast
  ring

/-- The pattern with the given sign and low 31 bits. -/
def b32Pattern (neg : Bool) (mag : Nat) : B32 := BitVec.ofNat 32 ((if neg then 2 ^ 31 else 0) + mag)

section
variable (neg : Bool) {mag : Nat} (hmag : mag < 2 ^ 31)
include hmag

/-- The sign bit of a pattern. -/
theorem b32Pattern_sign : (b32Pattern neg mag).getLsbD 31 = neg := by
  have htest : (b32Pattern neg mag).getLsbD 31 = (b32Pattern neg mag).toNat.testBit 31 := rfl
  rw [htest, b32Pattern, BitVec.toNat_ofNat, Nat.testBit_eq_decide_div_mod_eq]
  cases neg with
  | false => simp only [Bool.false_eq_true, if_false, decide_eq_false_iff_not]; omega
  | true => simp only [if_true, decide_eq_true_eq]; omega

/-- The biased exponent of a pattern. -/
theorem b32Pattern_exp : b32Exp (b32Pattern neg mag) = mag / 2 ^ 23 := by
  rw [b32Exp, BitVec.extractLsb'_toNat, b32Pattern, BitVec.toNat_ofNat, Nat.shiftRight_eq_div_pow]
  cases neg with
  | false => simp only [Bool.false_eq_true, if_false]; omega
  | true => simp only [if_true]; omega

omit hmag in
/-- The fraction of a pattern. -/
theorem b32Pattern_frac : b32Frac (b32Pattern neg mag) = mag % 2 ^ 23 := by
  rw [b32Frac, BitVec.extractLsb'_toNat, b32Pattern, BitVec.toNat_ofNat, Nat.shiftRight_eq_div_pow]
  cases neg with
  | false => simp only [Bool.false_eq_true, if_false]; omega
  | true => simp only [if_true]; omega

omit hmag in
/-- The lowest bit of a pattern. -/
theorem b32Pattern_even (h : mag % 2 = 0) : (b32Pattern neg mag).getLsbD 0 = false := by
  have htest : (b32Pattern neg mag).getLsbD 0 = (b32Pattern neg mag).toNat.testBit 0 := rfl
  rw [htest, b32Pattern, BitVec.toNat_ofNat, Nat.testBit_eq_decide_div_mod_eq, decide_eq_false_iff_not]
  cases neg with
  | false => simp only [Bool.false_eq_true, if_false]; omega
  | true => simp only [if_true]; omega

end

/-- R105: a significand that fits, in its place: `m` units of 2^(k - 149). A significand of 2^24 carries into the
exponent, and one below 2^23 is subnormal. -/
theorem b32Pattern_value (neg : Bool) {k m : Nat} (hm : m ≤ 2 ^ 24) (hk : k = 0 ∨ 2 ^ 23 ≤ m)
    (hmag : k * 2 ^ 23 + m < 2 ^ 31) :
    b32Value (b32Pattern neg (k * 2 ^ 23 + m)) = (if neg then -1 else 1) * (m : ℚ) * (2 : ℚ) ^ ((k : ℤ) - 149) := by
  rw [b32Value_eq, b32Significand, b32Scale, b32Pattern_sign neg hmag, b32Pattern_exp neg hmag, b32Pattern_frac neg]
  obtain hsub | hnorm | hcarry : m < 2 ^ 23 ∨ (2 ^ 23 ≤ m ∧ m < 2 ^ 24) ∨ m = 2 ^ 24 := by omega
  · have hexp : (k * 2 ^ 23 + m) / 2 ^ 23 = 0 := by omega
    have hfrac : (k * 2 ^ 23 + m) % 2 ^ 23 = m := by omega
    obtain rfl : k = 0 := by omega
    rw [hexp, hfrac, if_pos rfl, if_pos rfl]
    rfl
  · have hexp : (k * 2 ^ 23 + m) / 2 ^ 23 = k + 1 := by omega
    have hfrac : 2 ^ 23 + (k * 2 ^ 23 + m) % 2 ^ 23 = m := by omega
    rw [hexp, hfrac, if_neg k.succ_ne_zero, if_neg k.succ_ne_zero,
      show ((k + 1 : Nat) : ℤ) - 150 = (k : ℤ) - 149 by push_cast; ring]
  · subst hcarry
    have hexp : (k * 2 ^ 23 + 2 ^ 24) / 2 ^ 23 = k + 2 := by omega
    have hfrac : 2 ^ 23 + (k * 2 ^ 23 + 2 ^ 24) % 2 ^ 23 = 2 ^ 23 := by omega
    rw [hexp, hfrac, if_neg (k + 1).succ_ne_zero, if_neg (k + 1).succ_ne_zero,
      show ((k + 2 : Nat) : ℤ) - 150 = ((k : ℤ) - 149) + 1 by push_cast; ring, zpow_add₀ two_ne_zero]
    push_cast
    ring

/-- The value of a pattern is fewer than 2^24 units of a power of two that is not below 2^(-149). -/
theorem b32Value_units (y : B32) : ∃ (k : ℤ) (s : ℕ), 1 ≤ s ∧ |k| < 2 ^ 24 ∧
    b32Value y = k * (2 : ℚ) ^ ((s : ℤ) - 150) := by
  have hfrac : b32Frac y < 2 ^ 23 := (y.extractLsb' 0 23).isLt
  refine ⟨if y.getLsbD 31 then -(b32Significand y : ℤ) else b32Significand y, b32Scale y, ?_, ?_, ?_⟩
  · rw [b32Scale]; split <;> omega
  · have hsig : b32Significand y < 2 ^ 24 := by rw [b32Significand]; split <;> omega
    split <;> simp only [abs_neg, Nat.abs_cast] <;> exact_mod_cast hsig
  · rw [b32Value_eq]
    split <;> push_cast <;> ring

/-! ### What RN32 does -/

/-- How `x` came from rounding `r`: the exponent `E` of `r`, not below that of the smallest normal number, and the
nearest number `z` of units 2^(E - 23), the even one of two that are equally near (R176). -/
structure Rounded (x : B32) (r : ℚ) (E z : ℤ) : Prop where
  exp_ge : -126 ≤ E
  lower : E = -126 ∨ (2 : ℚ) ^ E ≤ |r|
  upper : |r| < (2 : ℚ) ^ (E + 1)
  close : |z * (2 : ℚ) ^ (E - 23) - r| ≤ (2 : ℚ) ^ (E - 23) / 2
  tie : |z * (2 : ℚ) ^ (E - 23) - r| = (2 : ℚ) ^ (E - 23) / 2 → x.getLsbD 0 = false
  value : b32Value x = z * (2 : ℚ) ^ (E - 23)
  finite : b32Finite x = true

/-- The exponent that `rn32` rounds at (R176). -/
theorem roundExp_spec {n d : Nat} (hn : 0 < n) (hd : 0 < d) :
    -126 ≤ roundExp n d ∧ (roundExp n d = -126 ∨ (2 : ℚ) ^ roundExp n d ≤ (n : ℚ) / d) ∧
      (n : ℚ) / d < (2 : ℚ) ^ (roundExp n d + 1) := by
  obtain ⟨hlow, hup⟩ := floorLog2_spec hn hd
  unfold roundExp
  refine ⟨le_max_right _ _, ?_, hup.trans_le (zpow_le_zpow_right₀ one_le_two (by omega))⟩
  obtain h | h := max_choice (floorLog2 n d) (-126)
  · rw [h]; exact .inr hlow
  · exact .inl h

/-- The rounded significand is at most 2^24, and at least 2^23 unless the result is subnormal. -/
theorem roundScaled_bounds {n d : Nat} {E : ℤ} (hd : 0 < d) (hup : (n : ℚ) / d < (2 : ℚ) ^ (E + 1)) :
    roundScaled n d (E - 23) ≤ 2 ^ 24 ∧ ((2 : ℚ) ^ E ≤ (n : ℚ) / d → 2 ^ 23 ≤ roundScaled n d (E - 23)) := by
  obtain ⟨hclose, -⟩ := roundScaled_spec (n := n) hd (E - 23)
  have hu : (0 : ℚ) < 2 ^ (E - 23) := by positivity
  have hE : (2 : ℚ) ^ E = 2 ^ 23 * 2 ^ (E - 23) := by
    rw [← zpow_natCast, ← zpow_add₀ two_ne_zero]; congr 1; push_cast; ring
  rw [zpow_add₀ two_ne_zero, hE] at hup
  rw [hE]
  generalize roundScaled n d (E - 23) = m at *
  generalize (2 : ℚ) ^ (E - 23) = u at *
  rw [abs_le] at hclose
  obtain ⟨hlow, hhigh⟩ := hclose
  constructor
  · have hlt : (m : ℚ) < 2 ^ 24 + 1 := by
      by_contra hge
      have := mul_le_mul_of_nonneg_right (not_lt.mp hge) hu.le
      linarith
    exact Nat.lt_succ_iff.mp (by exact_mod_cast hlt)
  · intro hge
    have hlt : (2 : ℚ) ^ 23 < m + 1 := by
      by_contra hle
      have := mul_le_mul_of_nonneg_right (not_lt.mp hle) hu.le
      linarith
    exact Nat.lt_succ_iff.mp (by exact_mod_cast hlt)

/-- The sign of a pattern, as a number. -/
def signOf (neg : Bool) : ℤ := if neg then -1 else 1

/-- A sign does not change a magnitude. -/
theorem abs_signOf_mul (neg : Bool) (a : ℚ) : |(signOf neg : ℚ) * a| = |a| := by
  cases neg <;> simp [signOf]

/-- The sign and the magnitude of a rational. -/
theorem Ratio.toRat_eq (q : Ratio) : q.toRat = signOf (decide (q.num < 0)) * ((q.num.natAbs : ℚ) / q.den) := by
  have hnum : q.num = signOf (decide (q.num < 0)) * (q.num.natAbs : ℤ) := by
    by_cases hneg : q.num < 0
    · simp only [signOf, hneg, decide_true, if_true]; omega
    · simp only [signOf, hneg, decide_false, Bool.false_eq_true, if_false]; omega
  rw [Ratio.toRat, ← mul_div_assoc]
  rw [← Int.cast_natCast q.num.natAbs, ← Int.cast_mul, ← hnum]

/-- The magnitude of a rational. -/
theorem Ratio.abs_toRat (q : Ratio) : |q.toRat| = (q.num.natAbs : ℚ) / q.den := by
  rw [q.toRat_eq, abs_signOf_mul, abs_of_nonneg (by positivity)]

/-- `rn32` builds a pattern (R176). -/
theorem rn32_eq_pattern (q : Ratio) : rn32 q = b32Pattern (decide (q.num < 0)) (roundMagnitude q.num.natAbs q.den) := by
  rw [rn32, b32Pattern]
  congr 2
  simp only [decide_eq_true_eq]

/-- The pattern of a sign, an exponent and a rounded significand. -/
theorem rounded_pattern (neg : Bool) {a : ℚ} {E : ℤ} {m : ℕ} (ha : 0 ≤ a) (hge : -126 ≤ E) (hle : E ≤ 126)
    (hlow : E = -126 ∨ (2 : ℚ) ^ E ≤ a) (hup : a < (2 : ℚ) ^ (E + 1)) (hmax : m ≤ 2 ^ 24)
    (hmin : (2 : ℚ) ^ E ≤ a → 2 ^ 23 ≤ m)
    (hclose : |a - m * (2 : ℚ) ^ (E - 23)| ≤ (2 : ℚ) ^ (E - 23) / 2)
    (htie : |a - m * (2 : ℚ) ^ (E - 23)| = (2 : ℚ) ^ (E - 23) / 2 → m % 2 = 0) :
    Rounded (b32Pattern neg ((E + 126).toNat * 2 ^ 23 + m)) (signOf neg * a) E (signOf neg * m) := by
  have hk : (E + 126).toNat = 0 ∨ 2 ^ 23 ≤ m := hlow.imp (by omega) hmin
  have hkle : (E + 126).toNat ≤ 252 := by omega
  have hmag : (E + 126).toNat * 2 ^ 23 + m < 2 ^ 31 := by omega
  have hdist : |((signOf neg * m : ℤ) : ℚ) * (2 : ℚ) ^ (E - 23) - signOf neg * a| = |a - m * (2 : ℚ) ^ (E - 23)| := by
    rw [← abs_signOf_mul neg (a - m * (2 : ℚ) ^ (E - 23)), ← abs_neg]
    congr 1
    push_cast
    ring
  refine ⟨hge, ?_, ?_, hdist ▸ hclose, fun h => b32Pattern_even neg ?_, ?_, ?_⟩
  · rwa [abs_signOf_mul, abs_of_nonneg ha]
  · rwa [abs_signOf_mul, abs_of_nonneg ha]
  · have := htie (hdist ▸ h)
    omega
  · rw [b32Pattern_value neg hmax hk hmag, show (((E + 126).toNat : ℕ) : ℤ) - 149 = E - 23 by omega]
    cases neg <;> simp [signOf]
  · rw [b32Finite, b32Pattern_exp neg hmag, bne_iff_ne]
    omega

/-- R176: what RN32 does to a rational below the overflow. -/
theorem rn32_rounded {q : Ratio} (hd : 0 < q.den) (hlt : |q.toRat| < (2 : ℚ) ^ (127 : ℤ)) :
    ∃ E z, Rounded (rn32 q) q.toRat E z := by
  rw [q.abs_toRat] at hlt
  rw [rn32_eq_pattern, q.toRat_eq]
  by_cases hzero : q.num.natAbs = 0
  · have hpattern := rounded_pattern (decide (q.num < 0)) (a := 0) (E := -126) (m := 0) le_rfl le_rfl (by norm_num)
      (.inl rfl) (by norm_num) (by norm_num) (fun h => absurd h (by norm_num)) (by norm_num) (fun _ => rfl)
    rw [hzero, Nat.cast_zero, zero_div, roundMagnitude, if_pos rfl]
    exact ⟨_, _, hpattern⟩
  · obtain ⟨hge, hlow, hup⟩ := roundExp_spec (Nat.pos_of_ne_zero hzero) hd
    obtain ⟨hclose, htie⟩ := roundScaled_spec (n := q.num.natAbs) hd (roundExp q.num.natAbs q.den - 23)
    obtain ⟨hmax, hmin⟩ := roundScaled_bounds hd hup
    have hle : roundExp q.num.natAbs q.den ≤ 126 := by
      obtain h | h := hlow
      · omega
      · exact Int.lt_add_one_iff.mp ((zpow_lt_zpow_iff_right₀ one_lt_two).mp (h.trans_lt hlt))
    have hpattern := rounded_pattern (decide (q.num < 0)) (by positivity) hge hle hlow hup hmax hmin hclose htie
    rw [roundMagnitude, if_neg hzero, min_eq_right (by omega)]
    exact ⟨_, _, hpattern⟩

/-- A common factor does not change the rounded quotient. -/
theorem roundQuot_mul_left {c : Nat} (hc : 0 < c) (n d : Nat) : roundQuot (c * n) (c * d) = roundQuot n d := by
  have hlt : ∀ a b : Nat, c * a < c * b ↔ a < b := fun a b => Nat.mul_lt_mul_left hc
  simp only [roundQuot, Nat.mul_mod_mul_left, Nat.mul_div_mul_left _ _ hc, Nat.mul_left_comm 2 c, hlt]

/-- Equal quotients round to the same integer. -/
theorem roundQuot_congr {n d n' d' : Nat} (hd : 0 < d) (hd' : 0 < d') (h : n * d' = n' * d) :
    roundQuot n d = roundQuot n' d' := by
  rw [← roundQuot_mul_left hd' n d, ← roundQuot_mul_left hd n' d', Nat.mul_comm d' n, h, Nat.mul_comm n' d,
    Nat.mul_comm d' d]

/-- Equal quotients are rounded to the same multiple of a power of two. -/
theorem roundScaled_congr {n d n' d' : Nat} (hd : 0 < d) (hd' : 0 < d') (h : n * d' = n' * d) (e : ℤ) :
    roundScaled n d e = roundScaled n' d' e := by
  cases e with
  | ofNat k => exact roundQuot_congr (by positivity) (by positivity) (by rw [← mul_assoc, h, mul_assoc])
  | negSucc k => exact roundQuot_congr hd hd' (by rw [mul_right_comm, h, mul_right_comm])

/-- Equal quotients have the same exponent. -/
theorem floorLog2_congr {n d n' d' : Nat} (hn : 0 < n) (hn' : 0 < n') (hd : 0 < d) (hd' : 0 < d')
    (h : (n : ℚ) / d = (n' : ℚ) / d') : floorLog2 n d = floorLog2 n' d' := by
  obtain ⟨hlow, hup⟩ := floorLog2_spec hn hd
  obtain ⟨hlow', hup'⟩ := floorLog2_spec hn' hd'
  rw [← h] at hlow' hup'
  have hle := (zpow_lt_zpow_iff_right₀ one_lt_two).mp (hlow.trans_lt hup')
  have hge := (zpow_lt_zpow_iff_right₀ one_lt_two).mp (hlow'.trans_lt hup)
  omega

/-- RN32 depends on the value of its argument alone. -/
theorem rn32_congr {q q' : Ratio} (hd : 0 < q.den) (hd' : 0 < q'.den) (h : q.toRat = q'.toRat) : rn32 q = rn32 q' := by
  have hcross : q.num * q'.den = q'.num * q.den := by
    rw [Ratio.toRat, Ratio.toRat, div_eq_div_iff (by positivity) (by positivity)] at h
    exact_mod_cast h
  have habs : q.num.natAbs * q'.den = q'.num.natAbs * q.den := by
    simpa [Int.natAbs_mul] using congrArg Int.natAbs hcross
  have hquot : (q.num.natAbs : ℚ) / q.den = (q'.num.natAbs : ℚ) / q'.den := by
    rw [← q.abs_toRat, ← q'.abs_toRat, h]
  have hneg : q.num < 0 ↔ q'.num < 0 := by
    have hsign := congrArg Int.sign hcross
    rw [Int.sign_mul, Int.sign_mul, Int.sign_natCast_of_ne_zero hd.ne', Int.sign_natCast_of_ne_zero hd'.ne', mul_one,
      mul_one] at hsign
    rw [← Int.sign_eq_neg_one_iff_neg, hsign, Int.sign_eq_neg_one_iff_neg]
  have hmag : roundMagnitude q.num.natAbs q.den = roundMagnitude q'.num.natAbs q'.den := by
    by_cases hzero : q.num.natAbs = 0
    · have hzero' : q'.num.natAbs = 0 := by
        rw [hzero, zero_mul] at habs
        exact (mul_eq_zero.mp habs.symm).resolve_right hd.ne'
      rw [roundMagnitude, roundMagnitude, if_pos hzero, if_pos hzero']
    · have hzero' : q'.num.natAbs ≠ 0 := by
        intro hz
        rw [hz, zero_mul] at habs
        exact hzero ((mul_eq_zero.mp habs).resolve_right hd'.ne')
      have hexp : roundExp q.num.natAbs q.den = roundExp q'.num.natAbs q'.den := by
        rw [roundExp, roundExp,
          floorLog2_congr (Nat.pos_of_ne_zero hzero) (Nat.pos_of_ne_zero hzero') hd hd' hquot]
      rw [roundMagnitude, roundMagnitude, if_neg hzero, if_neg hzero', hexp, roundScaled_congr hd hd' habs]
  rw [rn32_eq_pattern, rn32_eq_pattern, hmag]
  congr 1
  exact decide_eq_decide.mpr hneg

/-! ### Rounding is to the nearest -/

namespace Rounded

variable {x : B32} {r : ℚ} {E z : ℤ} (h : Rounded x r E z)
include h

/-- Every other multiple of the unit is at least half a unit away. -/
theorem half_le_of_ne {k : ℤ} (hk : k ≠ z) : (2 : ℚ) ^ (E - 23) / 2 ≤ |k * (2 : ℚ) ^ (E - 23) - r| := by
  have hu : (0 : ℚ) < 2 ^ (E - 23) := by positivity
  have hone : (1 : ℚ) ≤ |(k : ℚ) - z| := by exact_mod_cast Int.one_le_abs (sub_ne_zero.mpr hk)
  have hgap : (2 : ℚ) ^ (E - 23) ≤ |k * (2 : ℚ) ^ (E - 23) - z * (2 : ℚ) ^ (E - 23)| := by
    rw [← sub_mul, abs_mul, abs_of_pos hu]
    exact le_mul_of_one_le_left hu.le hone
  have htri := abs_sub_le (k * (2 : ℚ) ^ (E - 23)) r (z * (2 : ℚ) ^ (E - 23))
  rw [abs_sub_comm r] at htri
  linarith [h.close]

/-- A multiple of the unit is not nearer than the result, and as near only on a tie. -/
theorem multiple_le (k : ℤ) : |b32Value x - r| ≤ |k * (2 : ℚ) ^ (E - 23) - r| ∧
    (|b32Value x - r| = |k * (2 : ℚ) ^ (E - 23) - r| → k * (2 : ℚ) ^ (E - 23) ≠ b32Value x → x.getLsbD 0 = false) := by
  rw [h.value]
  by_cases hk : k = z
  · subst hk
    exact ⟨le_rfl, fun _ hne => absurd rfl hne⟩
  · have hhalf := h.half_le_of_ne hk
    exact ⟨h.close.trans hhalf, fun heq _ => h.tie (le_antisymm h.close (heq ▸ hhalf))⟩

/-- A number below the binade of `r` in magnitude is farther away than the result. -/
theorem lt_of_abs_lt {y : ℚ} (hlow : (2 : ℚ) ^ E ≤ |r|) (hy : |y| < (2 : ℚ) ^ E) : |b32Value x - r| < |y - r| := by
  have hE : (2 : ℚ) ^ E = 2 ^ 23 * 2 ^ (E - 23) := by
    rw [← zpow_natCast, ← zpow_add₀ two_ne_zero]; congr 1; push_cast; ring
  obtain hpos | hneg := le_or_gt 0 r
  · have hedge := (h.multiple_le (2 ^ 23)).1
    rw [abs_of_nonneg hpos] at hlow
    rw [Int.cast_pow, Int.cast_ofNat, ← hE, abs_of_nonpos (sub_nonpos.mpr hlow)] at hedge
    refine hedge.trans_lt ?_
    rw [abs_of_neg (by linarith [le_abs_self y])]
    linarith [le_abs_self y]
  · have hedge := (h.multiple_le (-2 ^ 23)).1
    rw [abs_of_neg hneg] at hlow
    rw [Int.cast_neg, Int.cast_pow, Int.cast_ofNat, neg_mul, ← hE,
      abs_of_nonneg (show 0 ≤ -(2 : ℚ) ^ E - r by linarith)] at hedge
    refine hedge.trans_lt ?_
    rw [abs_of_pos (by linarith [neg_abs_le y])]
    linarith [neg_abs_le y]

/-- R176: the result is the nearest finite binary32, the even one of two that are equally near. -/
theorem isNearest : isNearest x r := by
  refine ⟨h.finite, fun y _ => ?_⟩
  obtain ⟨k, s, hs, hk, hy⟩ := b32Value_units y
  by_cases hunit : E - 23 ≤ (s : ℤ) - 150
  · have hmultiple : b32Value y = (k * 2 ^ ((s : ℤ) - 150 - (E - 23)).toNat : ℤ) * (2 : ℚ) ^ (E - 23) := by
      rw [hy]
      push_cast
      rw [mul_assoc, ← zpow_natCast, ← zpow_add₀ two_ne_zero]
      congr 2
      omega
    rw [hmultiple]
    exact h.multiple_le _
  · have hlow : (2 : ℚ) ^ E ≤ |r| := h.lower.resolve_left (by omega)
    have hk' : |(k : ℚ)| < 2 ^ 24 := by exact_mod_cast hk
    have hsmall : |b32Value y| < (2 : ℚ) ^ E := by
      calc |b32Value y| = |(k : ℚ)| * (2 : ℚ) ^ ((s : ℤ) - 150) := by
            rw [hy, abs_mul, abs_of_pos (by positivity : (0 : ℚ) < 2 ^ ((s : ℤ) - 150))]
        _ < (2 : ℚ) ^ 24 * (2 : ℚ) ^ ((s : ℤ) - 150) := mul_lt_mul_of_pos_right hk' (by positivity)
        _ = (2 : ℚ) ^ ((s : ℤ) - 126) := by
            rw [← zpow_natCast, ← zpow_add₀ two_ne_zero]; congr 1; push_cast; ring
        _ ≤ (2 : ℚ) ^ E := zpow_le_zpow_right₀ one_le_two (by omega)
    have hlt := h.lt_of_abs_lt hlow hsmall
    exact ⟨hlt.le, fun heq => absurd heq hlt.ne⟩

/-- The exponent that the result was rounded at is below that of every bound of `r`. -/
theorem exp_lt {j : ℤ} (hj : -126 < j) (hr : |r| < (2 : ℚ) ^ j) : E < j := by
  obtain hE | hE := h.lower
  · omega
  · exact (zpow_lt_zpow_iff_right₀ one_lt_two).mp (hE.trans_lt hr)

/-- The rounding error of a number below 2^(e + 25) is at most 2^e. -/
theorem error_le {j e : ℤ} (he : j = e + 25) (hj : -126 < j) (hr : |r| < (2 : ℚ) ^ j) :
    |b32Value x - r| ≤ (2 : ℚ) ^ e := by
  have hE := h.exp_lt hj hr
  rw [h.value]
  calc |z * (2 : ℚ) ^ (E - 23) - r| ≤ (2 : ℚ) ^ (E - 23) / 2 := h.close
    _ = (2 : ℚ) ^ (E - 24) := by
        rw [show E - 23 = (E - 24) + 1 by ring, zpow_add₀ two_ne_zero, zpow_one, mul_div_assoc, div_self two_ne_zero,
          mul_one]
    _ ≤ (2 : ℚ) ^ e := zpow_le_zpow_right₀ one_le_two (by omega)

/-- A multiple of 2^j of fewer than 2^24 units is a binary32, so it is the result of its own rounding. -/
theorem exact {j k : ℤ} (hj : -149 ≤ j) (hr : r = k * (2 : ℚ) ^ j) (hlt : |r| < (2 : ℚ) ^ (j + 24)) :
    b32Value x = r := by
  have hE := h.exp_lt (by omega) hlt
  have hunit : r = (k * 2 ^ (j - (E - 23)).toNat : ℤ) * (2 : ℚ) ^ (E - 23) := by
    rw [hr]
    push_cast
    rw [mul_assoc, ← zpow_natCast, ← zpow_add₀ two_ne_zero]
    congr 2
    omega
  have hle := (h.multiple_le (k * 2 ^ (j - (E - 23)).toNat)).1
  rw [← hunit, sub_self, abs_zero] at hle
  exact sub_eq_zero.mp (abs_nonpos_iff.mp hle)

/-- An integer below 2^24 in magnitude is a binary32 (R175). -/
theorem exact_int {k : ℤ} (hr : r = k) (hlt : |r| < 2 ^ 24) : b32Value x = k :=
  (h.exact (j := 0) (by norm_num) (by rw [hr, zpow_zero, mul_one]) (by exact_mod_cast hlt)).trans hr

end Rounded

end Sys2Proof.Machine
end

section
/-! PROOFS. The scaler (42_decoder_scaler.md R175 to R183): its two evaluations as roundings of exact rationals, and what
follows for their values. -/

namespace Sys2Proof.Machine

open Sys2Proof

/-! ### Exact rationals -/

/-- The value of an unsigned integer (00_scope.md R11). -/
theorem Ratio.toRat_ofNat (n : Nat) : (Ratio.ofNat n).toRat = n := by
  simp [Ratio.toRat, Ratio.ofNat]

/-- The value of the exact product. -/
theorem Ratio.toRat_mul (x y : Ratio) : (x.mul y).toRat = x.toRat * y.toRat := by
  simp only [Ratio.toRat, Ratio.mul]
  push_cast
  rw [div_mul_div_comm]

/-- The value of the exact difference. -/
theorem Ratio.toRat_sub {x y : Ratio} (hx : 0 < x.den) (hy : 0 < y.den) : (x.sub y).toRat = x.toRat - y.toRat := by
  simp only [Ratio.toRat, Ratio.sub]
  push_cast
  rw [div_sub_div _ _ (by positivity) (by positivity), mul_comm (y.num : ℚ)]

/-- The quotient by a number that is not 0. -/
theorem Ratio.toRat_div (x : Ratio) {y : Ratio} (hy : y.num ≠ 0) : (x.div y).toRat = x.toRat / y.toRat := by
  have hsign : (y.num.natAbs : ℚ) = y.num * y.num.sign := by
    have habs : (y.num.natAbs : ℤ) = y.num * y.num.sign := by rw [Int.mul_sign_self, Int.natCast_natAbs]
    rw [← Int.cast_natCast, habs, Int.cast_mul]
  have hs : (y.num.sign : ℚ) ≠ 0 := by exact_mod_cast Int.sign_eq_zero_iff_zero.not.mpr hy
  simp only [Ratio.toRat, Ratio.div]
  push_cast
  rw [hsign, ← mul_assoc, mul_div_mul_right _ _ hs, div_div_div_eq]

/-- A binary32's rational has a positive denominator. -/
theorem b32Ratio_den (x : B32) : 0 < (b32Ratio x).den := by
  unfold b32Ratio
  dsimp only
  split
  · exact one_pos
  · exact Nat.two_pow_pos _

/-- A binary32 that is not 0 has a numerator that is not 0. -/
theorem b32Ratio_num_ne_zero {x : B32} (h : b32Value x ≠ 0) : (b32Ratio x).num ≠ 0 := by
  intro hnum
  exact h (by rw [b32Value, Ratio.toRat, hnum, Int.cast_zero, zero_div])

/-! ### Unsigned integers and the quotient of B32_CHAIN -/

/-- R175: a rational that is an integer below 2^24 is exact. -/
theorem rn32_of_nat {q : Ratio} {n : Nat} (hd : 0 < q.den) (hq : q.toRat = n) (hn : n < 2 ^ 24) :
    b32Value (rn32 q) = n := by
  have habs : |q.toRat| < 2 ^ 24 := by
    rw [hq, abs_of_nonneg (Nat.cast_nonneg n)]
    exact_mod_cast hn
  obtain ⟨E, z, h⟩ := rn32_rounded hd (habs.trans (by norm_num))
  exact h.exact_int (k := n) hq habs

/-- R175: u2b32 is exact below 2^24. -/
theorem u2b32_value {n : Nat} (hn : n < 2 ^ 24) : b32Value (u2b32 n) = n :=
  rn32_of_nat one_pos (Ratio.toRat_ofNat n) hn

/-- R180: the product of two integers, itself below 2^24, is exact. -/
theorem mul32_value {a b : Nat} (ha : a < 2 ^ 24) (hb : b < 2 ^ 24) (hab : a * b < 2 ^ 24) :
    b32Value (mul32 (u2b32 a) (u2b32 b)) = a * b := by
  have hprod : ((b32Ratio (u2b32 a)).mul (b32Ratio (u2b32 b))).toRat = (a * b : Nat) := by
    rw [Ratio.toRat_mul, Nat.cast_mul]
    exact congrArg₂ _ (u2b32_value ha) (u2b32_value hb)
  rw [mul32, rn32_of_nat (Nat.mul_pos (b32Ratio_den _) (b32Ratio_den _)) hprod hab, Nat.cast_mul]

/-- The exact value of a code times a span, over 16383. -/
def scaledExact (c : Code) (span : Nat) : Ratio := (Ratio.ofNat (c.toNat * span)).div (Ratio.ofNat Config.codeMax)

/-- Its denominator is the divisor. -/
theorem scaledExact_den (c : Code) (span : Nat) : 0 < (scaledExact c span).den :=
  show 0 < 1 * 16383 by norm_num

/-- Its value. -/
theorem scaledExact_toRat (c : Code) (span : Nat) : (scaledExact c span).toRat = (c.toNat : ℚ) * span / 16383 := by
  rw [scaledExact, Ratio.toRat_div _ (by decide), Ratio.toRat_ofNat, Ratio.toRat_ofNat, Config.codeMax]
  push_cast
  rfl

/-- R180: the product and the divisor of B32_CHAIN are exact, so its quotient is the rounded exact one. -/
theorem chain_quotient (c : Code) {span : Nat} (hspan : span ≤ 165) :
    div32 (mul32 (u2b32 c.toNat) (u2b32 span)) (u2b32 Config.codeMax) = rn32 (scaledExact c span) := by
  have hc : c.toNat < 2 ^ 14 := c.isLt
  have hprod : c.toNat * span < 2 ^ 24 :=
    (Nat.mul_le_mul hc.le hspan).trans_lt (by norm_num)
  have hmul := mul32_value (show c.toNat < 2 ^ 24 by omega) (show span < 2 ^ 24 by omega) hprod
  have hmax : b32Value (u2b32 Config.codeMax) = 16383 := u2b32_value (by decide)
  have hnum := b32Ratio_num_ne_zero (x := u2b32 Config.codeMax) (by rw [hmax]; norm_num)
  refine rn32_congr (Nat.mul_pos (b32Ratio_den _) (Int.natAbs_pos.mpr hnum)) (scaledExact_den c span) ?_
  rw [Ratio.toRat_div _ hnum, scaledExact_toRat]
  exact congrArg₂ _ hmul hmax

/-- A code has 14 bits (00_scope.md R8, CODE_W). -/
theorem code_le (c : Code) : (c.toNat : ℚ) ≤ 16383 := by
  have hc : c.toNat ≤ 16383 := Nat.lt_succ_iff.mp c.isLt
  exact_mod_cast hc

/-- The scaled code lies between 0 and the span. -/
theorem abs_scaled_le (c : Code) {span : ℚ} (hpos : 0 ≤ span) (hspan : span ≤ 165) :
    |(c.toNat : ℚ) * span / 16383| ≤ 165 := by
  rw [abs_of_nonneg (by positivity), div_le_iff₀ (by norm_num)]
  calc (c.toNat : ℚ) * span ≤ 16383 * 165 := mul_le_mul (code_le c) hspan hpos (by norm_num)
    _ = 165 * 16383 := by norm_num

/-- The exact quotient of the temperature lies between 0 and 165. -/
theorem abs_quotient_le (c : Code) : |(c.toNat : ℚ) * 165 / 16383| ≤ 165 :=
  abs_scaled_le c (by norm_num) le_rfl

/-- So does the exact humidity. -/
theorem abs_humidityOf_le (c : Code) : |humidityOf c| ≤ 165 :=
  abs_scaled_le c (by norm_num) (by norm_num)

/-- R176: the rounded scaled code. -/
theorem scaledExact_rounded (c : Code) {span : Nat} (hspan : span ≤ 165) :
    ∃ E z, Rounded (rn32 (scaledExact c span)) ((c.toNat : ℚ) * span / 16383) E z := by
  rw [← scaledExact_toRat]
  refine rn32_rounded (scaledExact_den c span) ?_
  rw [scaledExact_toRat]
  exact (abs_scaled_le c (Nat.cast_nonneg span) (by exact_mod_cast hspan)).trans_lt (by norm_num)

/-! ### Humidity -/

/-- R180: the humidity of B32_CHAIN. -/
theorem humidityIndependentOfEval_eq (hc : Code) : scaleH .b32Chain hc = scaleH .exactRn hc :=
  chain_quotient hc (by decide : Config.hSpan ≤ 165)

/-- Settles O29: the product and the divisor are exact, and the one rounding left is that of EXACT_RN. -/
theorem humidityIndependentOfEval : Obligations.HumidityIndependentOfEval :=
  humidityIndependentOfEval_eq

/-- R177: the humidity under either FP_EVAL is the rounded exact one. -/
theorem scaleH_rounded (ev : FpEval) (hc : Code) : ∃ E z, Rounded (scaleH ev hc) (humidityOf hc) E z := by
  have hexact : ∃ E z, Rounded (scaleH .exactRn hc) (humidityOf hc) E z := by
    have hrounded := scaledExact_rounded hc (by decide : Config.hSpan ≤ 165)
    rw [show ((Config.hSpan : ℕ) : ℚ) = 100 by norm_num [Config.hSpan]] at hrounded
    exact hrounded
  cases ev with
  | exactRn => exact hexact
  | b32Chain => rw [humidityIndependentOfEval_eq]; exact hexact

/-- Settles O27: RN32 rounds to the nearest. -/
theorem humidityNearest : Obligations.HumidityNearest := by
  intro hc s
  obtain ⟨E, z, h⟩ := scaleH_rounded s.cfg.fpEval hc
  exact ⟨rfl, h.isNearest⟩

/-! ### Temperature -/

/-- T_SPAN as a rational (00_scope.md R8). -/
theorem tSpan_cast : ((Config.tSpan : ℕ) : ℚ) = 165 := by
  norm_num [Config.tSpan]

/-- R179: the exact temperature. -/
theorem temperatureExact_toRat (tc : Code) : (temperatureExact tc).toRat = temperatureOf tc := by
  have hsub := Ratio.toRat_sub (scaledExact_den tc Config.tSpan) (y := Ratio.ofNat Config.tOffset) one_pos
  rw [scaledExact_toRat, Ratio.toRat_ofNat, tSpan_cast,
    show ((Config.tOffset : ℕ) : ℚ) = 40 by norm_num [Config.tOffset]] at hsub
  exact hsub

/-- A temperature before its rounding is far below the overflow. -/
theorem abs_temperatureOf_lt (tc : Code) : |temperatureOf tc| < (2 : ℚ) ^ (7 : ℤ) := by
  have hle := code_le tc
  rw [temperatureOf, abs_lt]
  constructor
  · have : (0 : ℚ) ≤ (tc.toNat : ℚ) * 165 / 16383 := by positivity
    norm_num
    linarith
  · have : (tc.toNat : ℚ) * 165 / 16383 ≤ 165 := by
      rw [div_le_iff₀ (by norm_num)]
      linarith
    norm_num
    linarith

/-- R179: under EXACT_RN the temperature is the rounded exact one. -/
theorem scaleT_rounded (tc : Code) : ∃ E z, Rounded (scaleT .exactRn tc) (temperatureOf tc) E z := by
  rw [← temperatureExact_toRat]
  refine rn32_rounded (show 0 < (1 * 16383) * 1 by norm_num) ?_
  rw [temperatureExact_toRat]
  exact (abs_temperatureOf_lt tc).trans_le (zpow_le_zpow_right₀ one_le_two (by norm_num))

/-- Settles O28: RN32 rounds to the nearest. -/
theorem temperatureNearest : Obligations.TemperatureNearest := by
  intro tc s
  refine ⟨rfl, fun hev => ?_⟩
  obtain ⟨E, z, h⟩ := scaleT_rounded tc
  rw [hev]
  exact h.isNearest

/-- The quotient of B32_CHAIN: the first of its two roundings (R180). -/
def temperatureQuotient (tc : Code) : B32 := rn32 (scaledExact tc Config.tSpan)

/-- The quotient is the rounded exact one (R180). -/
theorem temperatureQuotient_rounded (tc : Code) :
    ∃ E z, Rounded (temperatureQuotient tc) ((tc.toNat : ℚ) * 165 / 16383) E z := by
  have hrounded := scaledExact_rounded tc (by decide : Config.tSpan ≤ 165)
  rw [tSpan_cast] at hrounded
  exact hrounded

/-- R180: the second rounding of B32_CHAIN is that of the difference. -/
theorem scaleT_chain (tc : Code) : scaleT .b32Chain tc = sub32 (temperatureQuotient tc) (u2b32 Config.tOffset) :=
  congrArg (sub32 · _) (chain_quotient tc (by decide : Config.tSpan ≤ 165))

/-- The quotient is within 2^(-17) of the exact one. -/
theorem temperatureQuotient_error (tc : Code) :
    |b32Value (temperatureQuotient tc) - (tc.toNat : ℚ) * 165 / 16383| ≤ (2 : ℚ) ^ (-17 : ℤ) := by
  obtain ⟨E, z, h⟩ := temperatureQuotient_rounded tc
  have hlt : |(tc.toNat : ℚ) * 165 / 16383| < (2 : ℚ) ^ (8 : ℤ) :=
    (abs_quotient_le tc).trans_lt (by norm_num)
  exact h.error_le (by norm_num) (by norm_num) hlt

/-- R180: under B32_CHAIN the temperature is the rounded difference of the rounded quotient and 40. -/
theorem scaleT_chain_rounded (tc : Code) :
    ∃ E z, Rounded (scaleT .b32Chain tc) (b32Value (temperatureQuotient tc) - 40) E z := by
  have hoffset : b32Value (u2b32 Config.tOffset) = 40 := u2b32_value (by decide)
  have hsub : ((b32Ratio (temperatureQuotient tc)).sub (b32Ratio (u2b32 Config.tOffset))).toRat =
      b32Value (temperatureQuotient tc) - 40 := by
    rw [Ratio.toRat_sub (b32Ratio_den _) (b32Ratio_den _), ← hoffset]
    rfl
  rw [scaleT_chain, ← hsub]
  refine rn32_rounded (Nat.mul_pos (b32Ratio_den _) (b32Ratio_den _)) ?_
  have herr := abs_le.mp (temperatureQuotient_error tc)
  have hr := abs_le.mp (abs_quotient_le tc)
  rw [hsub, abs_lt]
  norm_num at herr ⊢
  constructor <;> linarith [herr.1, herr.2, hr.1, hr.2]

/-- Settles O30: the quotient and the difference are each rounded to the nearest. -/
theorem temperatureChainRoundsTwice : Obligations.TemperatureChainRoundsTwice := by
  intro tc
  obtain ⟨E, z, hq⟩ := temperatureQuotient_rounded tc
  obtain ⟨E', z', hd⟩ := scaleT_chain_rounded tc
  exact ⟨temperatureQuotient tc, hq.isNearest, hd.isNearest⟩

/-! ### Errors -/

/-- R177: the humidity is within 2^(-18) of the exact one. -/
theorem scaleH_error (ev : FpEval) (hc : Code) : |b32Value (scaleH ev hc) - humidityOf hc| ≤ (2 : ℚ) ^ (-18 : ℤ) := by
  obtain ⟨E, z, h⟩ := scaleH_rounded ev hc
  have hle := code_le hc
  have hlt : |humidityOf hc| < (2 : ℚ) ^ (7 : ℤ) := by
    rw [humidityOf, abs_of_nonneg (by positivity), div_lt_iff₀ (by norm_num)]
    norm_num
    linarith
  exact h.error_le (by norm_num) (by norm_num) hlt

/-- R180: the temperature under EXACT_RN is within 2^(-18) of the exact one. -/
theorem scaleT_exact_error (tc : Code) :
    |b32Value (scaleT .exactRn tc) - temperatureOf tc| ≤ (2 : ℚ) ^ (-18 : ℤ) := by
  obtain ⟨E, z, h⟩ := scaleT_rounded tc
  exact h.error_le (by norm_num) (by norm_num) (abs_temperatureOf_lt tc)

/-- From 64 on the quotient is a multiple of 2^(-17), so its difference with 40 is exact. -/
theorem scaleT_chain_value_of_large {tc : Code} (h : 64 ≤ (tc.toNat : ℚ) * 165 / 16383) :
    b32Value (scaleT .b32Chain tc) = b32Value (temperatureQuotient tc) - 40 := by
  obtain ⟨E, z, hq⟩ := temperatureQuotient_rounded tc
  obtain ⟨E', z', hd⟩ := scaleT_chain_rounded tc
  have hE : 6 ≤ E := by
    have hup := hq.upper
    rw [abs_of_nonneg (by positivity)] at hup
    have hlt : (2 : ℚ) ^ (6 : ℤ) < (2 : ℚ) ^ (E + 1) :=
      (show (2 : ℚ) ^ (6 : ℤ) = 64 by norm_num).trans_lt (h.trans_lt hup)
    have := (zpow_lt_zpow_iff_right₀ one_lt_two).mp hlt
    omega
  refine hd.exact (j := -17) (k := z * 2 ^ (E - 6).toNat - 40 * 2 ^ 17) (by norm_num) ?_ ?_
  · have hpow : (2 : ℚ) ^ (E - 23) = 2 ^ (E - 6).toNat * (2 : ℚ) ^ (-17 : ℤ) := by
      rw [← zpow_natCast, ← zpow_add₀ two_ne_zero]
      congr 1
      omega
    rw [hq.value, hpow]
    push_cast
    rw [sub_mul, mul_assoc]
    norm_num
  · have herr := abs_le.mp (temperatureQuotient_error tc)
    have hr := abs_le.mp (abs_quotient_le tc)
    rw [abs_lt]
    norm_num at herr ⊢
    constructor <;> linarith [herr.1, herr.2, hr.1, hr.2]

/-- Below 64 both roundings of B32_CHAIN are within 2^(-19). -/
theorem scaleT_chain_error_of_small {tc : Code} (h : (tc.toNat : ℚ) * 165 / 16383 < 64) :
    |b32Value (scaleT .b32Chain tc) - temperatureOf tc| ≤ (2 : ℚ) ^ (-17 : ℤ) := by
  obtain ⟨E, z, hq⟩ := temperatureQuotient_rounded tc
  obtain ⟨E', z', hd⟩ := scaleT_chain_rounded tc
  have hpos : (0 : ℚ) ≤ (tc.toNat : ℚ) * 165 / 16383 := by positivity
  have herr : |b32Value (temperatureQuotient tc) - (tc.toNat : ℚ) * 165 / 16383| ≤ (2 : ℚ) ^ (-19 : ℤ) :=
    hq.error_le (j := 6) (by norm_num) (by norm_num) (by rw [abs_of_nonneg hpos]; norm_num; exact h)
  have hbounds := abs_le.mp herr
  have hdiff : |b32Value (temperatureQuotient tc) - 40| < (2 : ℚ) ^ (6 : ℤ) := by
    rw [abs_lt]
    norm_num at hbounds ⊢
    constructor <;> linarith [hbounds.1, hbounds.2]
  have hround := abs_le.mp (hd.error_le (e := -19) (by norm_num) (by norm_num) hdiff)
  rw [temperatureOf, abs_le]
  norm_num at hbounds hround ⊢
  constructor <;> linarith [hbounds.1, hbounds.2, hround.1, hround.2]

/-- R180: the temperature under B32_CHAIN is within 2^(-17) of the exact one. -/
theorem scaleT_chain_error (tc : Code) :
    |b32Value (scaleT .b32Chain tc) - temperatureOf tc| ≤ (2 : ℚ) ^ (-17 : ℤ) := by
  obtain h | h := lt_or_ge ((tc.toNat : ℚ) * 165 / 16383) 64
  · exact scaleT_chain_error_of_small h
  · rw [scaleT_chain_value_of_large h, temperatureOf, sub_sub_sub_cancel_right]
    exact temperatureQuotient_error tc

/-- Settles O31: 2^(-18) and 2^(-17) are below the two bounds. -/
theorem temperatureErrorBounds : Obligations.TemperatureErrorBounds :=
  fun tc => ⟨(scaleT_exact_error tc).trans (by norm_num), (scaleT_chain_error tc).trans (by norm_num)⟩

/-- R180: the temperature under either FP_EVAL. -/
theorem scaleT_error (ev : FpEval) (tc : Code) :
    |b32Value (scaleT ev tc) - temperatureOf tc| ≤ (2 : ℚ) ^ (-17 : ℤ) := by
  cases ev with
  | exactRn => exact (scaleT_exact_error tc).trans (by norm_num)
  | b32Chain => exact scaleT_chain_error tc

/-! ### Order, exact codes and ranges -/

/-- Settles O33: neighbouring codes are farther apart than twice the errors. -/
theorem strictlyMonotone : Obligations.StrictlyMonotone := by
  intro ev c d hcd
  have hgap : (c.toNat : ℚ) + 1 ≤ d.toNat := by exact_mod_cast hcd
  constructor
  · have hc := abs_le.mp (scaleH_error ev c)
    have hd := abs_le.mp (scaleH_error ev d)
    simp only [humidityOf] at hc hd
    norm_num at hc hd
    linarith [hc.2, hd.1]
  · have hc := abs_le.mp (scaleT_error ev c)
    have hd := abs_le.mp (scaleT_error ev d)
    simp only [temperatureOf] at hc hd
    norm_num at hc hd
    linarith [hc.2, hd.1]

/-- A binary32 is a multiple of 2^(-149), so a quotient by 16383 that is one has a numerator that 16383 divides. -/
theorem dvd_of_b32Value_eq {x : B32} {a : ℤ} (h : b32Value x = (a : ℚ) / 16383) : (16383 : ℤ) ∣ a := by
  obtain ⟨k, s, hs, -, hx⟩ := b32Value_units x
  have hint : a * 2 ^ 149 = 16383 * (k * 2 ^ (s - 1)) := by
    have hpow : (2 : ℚ) ^ ((s : ℤ) - 150) * 2 ^ 149 = 2 ^ (s - 1) := by
      rw [← zpow_natCast, ← zpow_natCast, ← zpow_add₀ two_ne_zero]
      congr 1
      push_cast [hs]
      ring
    have hrat : (a : ℚ) * 2 ^ 149 = 16383 * (k * 2 ^ (s - 1)) := by
      rw [← hpow, ← mul_assoc (k : ℚ), ← hx, h]
      ring
    exact_mod_cast hrat
  have hcop : IsCoprime (16383 : ℤ) (2 ^ 149) := by
    apply IsCoprime.pow_right
    exact ⟨1, -8191, by norm_num⟩
  exact hcop.dvd_of_dvd_mul_right (Dvd.intro _ hint.symm)

/-- A humidity that is an integer is exact. -/
theorem scaleH_value_of_int (ev : FpEval) {hc : Code} {k : ℤ} (h : humidityOf hc = k) :
    b32Value (scaleH ev hc) = k := by
  obtain ⟨E, z, hr⟩ := scaleH_rounded ev hc
  exact hr.exact_int h ((abs_humidityOf_le hc).trans_lt (by norm_num))

/-- A temperature that is an integer is exact: so is its quotient. -/
theorem scaleT_value_of_int (ev : FpEval) {tc : Code} {k : ℤ} (h : temperatureOf tc = k) :
    b32Value (scaleT ev tc) = k := by
  have hlt : |temperatureOf tc| < 2 ^ 24 := (abs_temperatureOf_lt tc).trans (by norm_num)
  cases ev with
  | exactRn =>
    obtain ⟨E, z, hr⟩ := scaleT_rounded tc
    exact hr.exact_int h hlt
  | b32Chain =>
    obtain ⟨E, z, hq⟩ := temperatureQuotient_rounded tc
    obtain ⟨E', z', hd⟩ := scaleT_chain_rounded tc
    have hquot : (tc.toNat : ℚ) * 165 / 16383 = (k + 40 : ℤ) := by
      rw [temperatureOf] at h
      push_cast
      linarith
    have hbelow : |(tc.toNat : ℚ) * 165 / 16383| < 2 ^ 24 :=
      (abs_quotient_le tc).trans_lt (by norm_num)
    have hdiff : b32Value (temperatureQuotient tc) - 40 = temperatureOf tc := by
      rw [hq.exact_int hquot hbelow, ← hquot, temperatureOf]
    rw [hdiff] at hd
    exact hd.exact_int h hlt

/-- So it is the exact value. -/
theorem scaleH_exact_of_int {hc : Code} {k : ℤ} (h : humidityOf hc = k) :
    b32Value (scaleH .exactRn hc) = humidityOf hc :=
  (scaleH_value_of_int .exactRn h).trans h.symm

/-- The same of a temperature. -/
theorem scaleT_exact_of_int {tc : Code} {k : ℤ} (h : temperatureOf tc = k) :
    b32Value (scaleT .exactRn tc) = temperatureOf tc :=
  (scaleT_value_of_int .exactRn h).trans h.symm

/-- Settles O32: a result is exact where the divisor divides, and the results at those codes are integers. -/
theorem exactCodes : Obligations.ExactCodes := by
  constructor
  · intro hc
    have := hc.isLt
    constructor
    · intro h
      have hdvd := dvd_of_b32Value_eq (a := hc.toNat * 100) (h.trans (by rw [humidityOf]; push_cast; rfl))
      omega
    · rintro (h | h)
      · exact scaleH_exact_of_int (k := 0) (by rw [humidityOf, h]; norm_num)
      · exact scaleH_exact_of_int (k := 100) (by rw [humidityOf, h]; norm_num)
  · intro tc
    have := tc.isLt
    constructor
    · intro h
      have hdvd := dvd_of_b32Value_eq (a := tc.toNat * 165 - 40 * 16383)
        (h.trans (by rw [temperatureOf]; push_cast; ring))
      omega
    · rintro (h | h | h | h)
      · exact scaleT_exact_of_int (k := -40) (by rw [temperatureOf, h]; norm_num)
      · exact scaleT_exact_of_int (k := 15) (by rw [temperatureOf, h]; norm_num)
      · exact scaleT_exact_of_int (k := 70) (by rw [temperatureOf, h]; norm_num)
      · exact scaleT_exact_of_int (k := 125) (by rw [temperatureOf, h]; norm_num)

/-- A function of the codes that increases strictly takes its extreme values at the extreme codes alone. -/
theorem range_of_strictMono {f : Code → ℚ} (hf : ∀ c d : Code, c.toNat < d.toNat → f c < f d) (c : Code) :
    f 0#14 ≤ f c ∧ f c ≤ f 16383#14 ∧ (f c = f 0#14 ↔ c.toNat = 0) ∧ (f c = f 16383#14 ↔ c.toNat = 16383) := by
  have hlow : c = 0#14 ∨ f 0#14 < f c := by
    by_cases h : c.toNat = 0
    · exact .inl (BitVec.eq_of_toNat_eq h)
    · exact .inr (hf _ _ (Nat.pos_of_ne_zero h))
  have hhigh : c = 16383#14 ∨ f c < f 16383#14 := by
    have hc := c.isLt
    by_cases h : c.toNat = 16383
    · exact .inl (BitVec.eq_of_toNat_eq h)
    · exact .inr (hf _ _ (show c.toNat < 16383 by omega))
  refine ⟨?_, ?_, ?_, ?_⟩
  · exact hlow.elim (fun h => h ▸ le_rfl) le_of_lt
  · exact hhigh.elim (fun h => h ▸ le_rfl) le_of_lt
  · refine ⟨fun h => hlow.elim (fun h0 => h0 ▸ rfl) fun hlt => absurd h hlt.ne', fun h => ?_⟩
    rw [show c = 0#14 from BitVec.eq_of_toNat_eq h]
  · refine ⟨fun h => hhigh.elim (fun h0 => h0 ▸ rfl) fun hlt => absurd h hlt.ne, fun h => ?_⟩
    rw [show c = 16383#14 from BitVec.eq_of_toNat_eq h]

/-- Settles O34: both scalings increase strictly, and are exact at the extreme codes. -/
theorem resultRanges : Obligations.ResultRanges := by
  intro ev c
  have hmin : b32Value (scaleH ev 0#14) = (0 : ℤ) := scaleH_value_of_int ev (by norm_num [humidityOf])
  have hmax : b32Value (scaleH ev 16383#14) = (100 : ℤ) := scaleH_value_of_int ev (by norm_num [humidityOf])
  have tmin : b32Value (scaleT ev 0#14) = (-40 : ℤ) := scaleT_value_of_int ev (by norm_num [temperatureOf])
  have tmax : b32Value (scaleT ev 16383#14) = (125 : ℤ) := scaleT_value_of_int ev (by norm_num [temperatureOf])
  obtain ⟨hge, hle, heqmin, heqmax⟩ := range_of_strictMono (f := fun c => b32Value (scaleH ev c))
    (fun c d hcd => (strictlyMonotone ev c d hcd).1) c
  obtain ⟨tge, tle, teqmin, teqmax⟩ := range_of_strictMono (f := fun c => b32Value (scaleT ev c))
    (fun c d hcd => (strictlyMonotone ev c d hcd).2) c
  simp only [hmin, hmax, tmin, tmax] at hge hle heqmin heqmax tge tle teqmin teqmax
  push_cast at hge hle heqmin heqmax tge tle teqmin teqmax
  exact ⟨hge, hle, tge, tle, heqmin, heqmax, teqmin, teqmax⟩

/-- A finite binary32 that is not below the smallest normal number in magnitude is normal (R105). -/
theorem normal_of_le_abs {x : B32} (hfin : b32Finite x = true) (hle : (2 : ℚ) ^ (-126 : ℤ) ≤ |b32Value x|) :
    0 < b32Exp x ∧ b32Exp x < 255 := by
  have hmax : b32Exp x < 256 := (x.extractLsb' 23 8).isLt
  rw [b32Finite, bne_iff_ne] at hfin
  refine ⟨Nat.pos_of_ne_zero fun hzero => ?_, by omega⟩
  have hfrac : b32Frac x < 2 ^ 23 := (x.extractLsb' 0 23).isLt
  have hfrac' : (b32Frac x : ℚ) < 8388608 := by exact_mod_cast hfrac
  have hsign : |(if x.getLsbD 31 then -1 else 1 : ℚ)| = 1 := by split <;> norm_num
  rw [b32Value_eq, abs_mul, abs_mul, hsign, b32Significand, b32Scale, if_pos hzero, if_pos hzero, Nat.abs_cast] at hle
  norm_num at hle
  linarith

/-- Settles O35: every result but the humidity of 0 is farther from 0 than the smallest normal number. -/
theorem noSpecialValues : Obligations.NoSpecialValues := by
  intro ev c
  refine ⟨fun h => ?_, fun h => ?_, ?_⟩
  · obtain rfl : c = 0#14 := BitVec.eq_of_toNat_eq h
    cases ev with
    | exactRn => decide
    | b32Chain => rw [humidityIndependentOfEval_eq]; decide
  · obtain ⟨E, z, hr⟩ := scaleH_rounded ev c
    have herr := (abs_le.mp (scaleH_error ev c)).1
    have hc : (1 : ℚ) ≤ c.toNat := by exact_mod_cast Nat.one_le_iff_ne_zero.mpr h
    refine normal_of_le_abs hr.finite (le_trans ?_ (le_abs_self _))
    rw [humidityOf] at herr
    norm_num at herr ⊢
    linarith
  · have hfin : b32Finite (scaleT ev c) = true := by
      cases ev with
      | exactRn => obtain ⟨E, z, hr⟩ := scaleT_rounded c; exact hr.finite
      | b32Chain => obtain ⟨E, z, hr⟩ := scaleT_chain_rounded c; exact hr.finite
    have herr := abs_le.mp (scaleT_error ev c)
    refine normal_of_le_abs hfin ?_
    rw [temperatureOf] at herr
    obtain hlow | hhigh : c.toNat ≤ 3971 ∨ 3972 ≤ c.toNat := by omega
    · have hc : (c.toNat : ℚ) ≤ 3971 := by exact_mod_cast hlow
      refine le_trans ?_ (neg_le_abs _)
      norm_num at herr ⊢
      linarith [herr.2]
    · have hc : (3972 : ℚ) ≤ c.toNat := by exact_mod_cast hhigh
      refine le_trans ?_ (le_abs_self _)
      norm_num at herr ⊢
      linarith [herr.1]

end Sys2Proof.Machine
end
